-- ==== Sys2Proof/Word.lean ====
section
/-!
DEFINITION. The word types of the CHIP-8 CORE (spec/00_scope.md section 7.1 and rule R1): all values are
unsigned. What a test could show wrong is not here but under Machine/.
-/

namespace Sys2Proof

/-- 8 bits: a general register, a timer, a memory byte (R1: `XLEN`). -/
abbrev Byte := BitVec 8

/-- 16 bits: PC, I, a stack entry, an instruction word (R1: `ALEN`, `ILEN`). -/
abbrev Word := BitVec 16

/-- A register number 0..15 (R10, R61: the fields `x` and `y`). -/
abbrev Reg := Fin 16

/-- The 64 pixels of one display row, bit `c` the pixel of column `c` (R18). -/
abbrev PixelRow := BitVec 64

/-- The pixel grid `DISP`: 32 rows of 64 pixels (R18: row-major, so `DISP[r*64 + c]` is bit `c` of row `r`). -/
abbrev Display := Vector PixelRow 32

/-- The 16 flags `KEYS[0..15]` (R19); bit `i` is `KEYS[i]` (decision D1). -/
abbrev Keys := BitVec 16

end Sys2Proof
end

