-- ==== Sys2Proof/Syntax.lean ====
section
/-!
DEFINITION. The 34 instructions of spec/30_encoding.md rule R64, one constructor per row of spec/opcode_table.json,
in the table's order. `x`, `y` are register numbers, `kk` an 8-bit immediate, `nnn` an address (the 12-bit field,
zero-extended as R63 says), `n` a row count. WellFormed.lean gives the ranges the encoding admits.
-/

namespace Sys2Proof

/-- An instruction (R64). -/
inductive Instr where
  /-- `CLS`, 00E0 (R140). -/
  | cls
  /-- `RET`, 00EE (R80). -/
  | ret
  /-- `JP nnn`, 1nnn (R81). -/
  | jp (nnn : Word)
  /-- `CALL nnn`, 2nnn (R82). -/
  | call (nnn : Word)
  /-- `SE Vx, kk`, 3xkk (R83). -/
  | seImm (x : Reg) (kk : Byte)
  /-- `SNE Vx, kk`, 4xkk (R84). -/
  | sneImm (x : Reg) (kk : Byte)
  /-- `SE Vx, Vy`, 5xy0 (R85). -/
  | seReg (x y : Reg)
  /-- `LD Vx, kk`, 6xkk (R100). -/
  | ldImm (x : Reg) (kk : Byte)
  /-- `ADD Vx, kk`, 7xkk (R101). -/
  | addImm (x : Reg) (kk : Byte)
  /-- `LD Vx, Vy`, 8xy0 (R102). -/
  | ldReg (x y : Reg)
  /-- `OR Vx, Vy`, 8xy1 (R103). -/
  | orReg (x y : Reg)
  /-- `AND Vx, Vy`, 8xy2 (R104). -/
  | andReg (x y : Reg)
  /-- `XOR Vx, Vy`, 8xy3 (R105). -/
  | xorReg (x y : Reg)
  /-- `ADD Vx, Vy`, 8xy4 (R106). -/
  | addReg (x y : Reg)
  /-- `SUB Vx, Vy`, 8xy5 (R107). -/
  | sub (x y : Reg)
  /-- `SHR Vx`, 8xy6 (R108); `y` is part of the word and ignored (R69). -/
  | shr (x y : Reg)
  /-- `SUBN Vx, Vy`, 8xy7 (R109). -/
  | subn (x y : Reg)
  /-- `SHL Vx`, 8xyE (R110); `y` is part of the word and ignored (R69). -/
  | shl (x y : Reg)
  /-- `SNE Vx, Vy`, 9xy0 (R86). -/
  | sneReg (x y : Reg)
  /-- `LD I, nnn`, Annn (R120). -/
  | ldI (nnn : Word)
  /-- `JP V0, nnn`, Bnnn (R87). -/
  | jpV0 (nnn : Word)
  /-- `RND Vx, kk`, Cxkk (R111). -/
  | rnd (x : Reg) (kk : Byte)
  /-- `DRW Vx, Vy, n`, Dxyn (R141). -/
  | drw (x y : Reg) (n : Nat)
  /-- `SKP Vx`, Ex9E (R150). -/
  | skp (x : Reg)
  /-- `SKNP Vx`, ExA1 (R151). -/
  | sknp (x : Reg)
  /-- `LD Vx, DT`, Fx07 (R152). -/
  | ldVxDt (x : Reg)
  /-- `LD Vx, K`, Fx0A (R153). -/
  | ldVxK (x : Reg)
  /-- `LD DT, Vx`, Fx15 (R154). -/
  | ldDtVx (x : Reg)
  /-- `LD ST, Vx`, Fx18 (R155). -/
  | ldStVx (x : Reg)
  /-- `ADD I, Vx`, Fx1E (R121). -/
  | addI (x : Reg)
  /-- `LD F, Vx`, Fx29 (R122). -/
  | ldF (x : Reg)
  /-- `LD B, Vx`, Fx33 (R123). -/
  | ldB (x : Reg)
  /-- `LD [I], Vx`, Fx55 (R124). -/
  | storeRegs (x : Reg)
  /-- `LD Vx, [I]`, Fx65 (R125). -/
  | loadRegs (x : Reg)
  deriving DecidableEq, Repr

end Sys2Proof
end

