-- ==== Sys2Proof/WellFormed.lean ====
section
/-!
DEFINITION. Which instructions the encoding can write (spec/30_encoding.md rules R61, R63). Register numbers and
`kk` have exactly the width of their fields by their types; the two checks are that an address fits its 12 bits and
a row count its 4 bits.
-/

namespace Sys2Proof

/-- `nnn` is a 12-bit address, value 0..0x0FFF (R63). -/
def addressFits (nnn : Word) : Bool := nnn.toNat < 0x1000

/-- `n` is a 4-bit row count, 0..15 (R63). -/
def rowCountFits (n : Nat) : Bool := n < 16

/-- Every operand fits its field (R61, R63). -/
def Instr.fits : Instr → Bool
  | .jp nnn | .call nnn | .ldI nnn | .jpV0 nnn => addressFits nnn
  | .drw _ _ n => rowCountFits n
  | .cls | .ret => true
  | .seImm _ _ | .sneImm _ _ | .ldImm _ _ | .addImm _ _ | .rnd _ _ => true
  | .seReg _ _ | .sneReg _ _ | .ldReg _ _ | .orReg _ _ | .andReg _ _ | .xorReg _ _ => true
  | .addReg _ _ | .sub _ _ | .shr _ _ | .subn _ _ | .shl _ _ => true
  | .skp _ | .sknp _ | .ldVxDt _ | .ldVxK _ | .ldDtVx _ | .ldStVx _ => true
  | .addI _ | .ldF _ | .ldB _ | .storeRegs _ | .loadRegs _ => true

/-- The instruction is one a word of the opcode table can hold. -/
abbrev Instr.WellFormed (i : Instr) : Prop := i.fits = true

end Sys2Proof
end

