-- ==== Sys2Proof/Decode.lean ====
section
/-!
DEFINITION. Decoding (spec/30_encoding.md rules R60 to R69), total on any bytes and refusing by name, and after it
the encoder, both written from the table of R64.
-/

namespace Sys2Proof

/-- Why bytes are no instruction: the six classes of R68, or fewer than the two bytes of a word. -/
inductive DecodeError where
  /-- `0nnn` other than `00E0` and `00EE`. -/
  | zeroGroup
  /-- `5xyN` with `N` not 0. -/
  | skipEqualGroup
  /-- `8xyN` with `N` in 8, 9, A, B, C, D, F. -/
  | aluGroup
  /-- `9xyN` with `N` not 0. -/
  | skipNotEqualGroup
  /-- `Exkk` with `kk` not 9E or A1. -/
  | keyGroup
  /-- `Fxkk` with `kk` none of the nine function bytes. -/
  | miscGroup
  /-- Fewer than two bytes. -/
  | truncated
  deriving DecidableEq, Repr

/-- The top nibble `op`, bits 15:12 (R61). -/
def fieldOp (w : Word) : BitVec 4 := w.extractLsb' 12 4

/-- The register field `x`, bits 11:8 (R61). -/
def fieldX (w : Word) : Reg := (w.extractLsb' 8 4).toFin

/-- The register field `y`, bits 7:4 (R61). -/
def fieldY (w : Word) : Reg := (w.extractLsb' 4 4).toFin

/-- The low nibble, bits 3:0 (R61): the row count of `DRW`, the function nibble of format R. -/
def fieldN (w : Word) : BitVec 4 := w.extractLsb' 0 4

/-- The low byte `kk`, bits 7:0 (R61). -/
def fieldKK (w : Word) : Byte := w.extractLsb' 0 8

/-- The address `nnn`, bits 11:0, zero-extended to 16 bits (R61, R63). -/
def fieldNNN (w : Word) : Word := (w.extractLsb' 0 12).setWidth 16

/-- Top nibble 0: the two literals (R64 rows 1 and 2). -/
def decodeZero (w : Word) : Except DecodeError Instr :=
  if w = 0x00E0 then .ok .cls
  else if w = 0x00EE then .ok .ret
  else .error .zeroGroup

/-- Top nibble 8: nine function nibbles (R64 rows 10 to 18). -/
def decodeAlu (w : Word) : Except DecodeError Instr :=
  match fieldN w with
  | 0x0 => .ok (.ldReg (fieldX w) (fieldY w))
  | 0x1 => .ok (.orReg (fieldX w) (fieldY w))
  | 0x2 => .ok (.andReg (fieldX w) (fieldY w))
  | 0x3 => .ok (.xorReg (fieldX w) (fieldY w))
  | 0x4 => .ok (.addReg (fieldX w) (fieldY w))
  | 0x5 => .ok (.sub (fieldX w) (fieldY w))
  | 0x6 => .ok (.shr (fieldX w) (fieldY w))
  | 0x7 => .ok (.subn (fieldX w) (fieldY w))
  | 0xE => .ok (.shl (fieldX w) (fieldY w))
  | _ => .error .aluGroup

/-- Top nibble E: two function bytes (R64 rows 24 and 25). -/
def decodeKey (w : Word) : Except DecodeError Instr :=
  match fieldKK w with
  | 0x9E => .ok (.skp (fieldX w))
  | 0xA1 => .ok (.sknp (fieldX w))
  | _ => .error .keyGroup

/-- Top nibble F: nine function bytes (R64 rows 26 to 34). -/
def decodeMisc (w : Word) : Except DecodeError Instr :=
  match fieldKK w with
  | 0x07 => .ok (.ldVxDt (fieldX w))
  | 0x0A => .ok (.ldVxK (fieldX w))
  | 0x15 => .ok (.ldDtVx (fieldX w))
  | 0x18 => .ok (.ldStVx (fieldX w))
  | 0x1E => .ok (.addI (fieldX w))
  | 0x29 => .ok (.ldF (fieldX w))
  | 0x33 => .ok (.ldB (fieldX w))
  | 0x55 => .ok (.storeRegs (fieldX w))
  | 0x65 => .ok (.loadRegs (fieldX w))
  | _ => .error .miscGroup

/-- The instruction a 16-bit word selects, or the class of unknown words it belongs to: a switch on `op` and then on
the fixed low bits, which R65 says is an equivalent decoder because the rows are disjoint. -/
def decodeWord (w : Word) : Except DecodeError Instr :=
  match fieldOp w with
  | 0x0 => decodeZero w
  | 0x1 => .ok (.jp (fieldNNN w))
  | 0x2 => .ok (.call (fieldNNN w))
  | 0x3 => .ok (.seImm (fieldX w) (fieldKK w))
  | 0x4 => .ok (.sneImm (fieldX w) (fieldKK w))
  | 0x5 => if fieldN w = 0 then .ok (.seReg (fieldX w) (fieldY w)) else .error .skipEqualGroup
  | 0x6 => .ok (.ldImm (fieldX w) (fieldKK w))
  | 0x7 => .ok (.addImm (fieldX w) (fieldKK w))
  | 0x8 => decodeAlu w
  | 0x9 => if fieldN w = 0 then .ok (.sneReg (fieldX w) (fieldY w)) else .error .skipNotEqualGroup
  | 0xA => .ok (.ldI (fieldNNN w))
  | 0xB => .ok (.jpV0 (fieldNNN w))
  | 0xC => .ok (.rnd (fieldX w) (fieldKK w))
  | 0xD => .ok (.drw (fieldX w) (fieldY w) (fieldN w).toNat)
  | 0xE => decodeKey w
  | _ => decodeMisc w

/-- The word of two bytes, the high byte first (R44, R60). -/
def wordOfBytes (hi lo : Byte) : Word := hi ++ lo

/-- The high byte of a word: the byte at the lower address (R44). -/
def highByte (w : Word) : Byte := w.extractLsb' 8 8

/-- The low byte of a word: the byte at the higher address (R44). -/
def lowByte (w : Word) : Byte := w.extractLsb' 0 8

/-- Decoding a byte sequence: the instruction of its first two bytes, and the rest (R60). -/
def decodeBytes : List Byte → Except DecodeError (Instr × List Byte)
  | hi :: lo :: rest =>
    match decodeWord (wordOfBytes hi lo) with
    | .ok i => .ok (i, rest)
    | .error e => .error e
  | _ => .error .truncated

/-- A word as the hardware stores it, lowest address first (R44). -/
def bytesOfWord (w : Word) : List Byte := [highByte w, lowByte w]

/-- The word the table's numbering gives: `nbits` bits of `w`, the bits above them 0. -/
def tableWord (nbits w : Nat) : Word := BitVec.ofNat 16 (w % 2 ^ nbits)

/-- The instruction the decoder reads from the table word `w` of `nbits` bits. -/
def decodeTableWord (nbits w : Nat) : Option Instr :=
  match decodeBytes (bytesOfWord (tableWord nbits w)) with
  | .ok (i, _) => some i
  | .error _ => none

/-! ## The encoder -/

/-- A register number as its 4-bit field (R61). -/
def regField (r : Reg) : BitVec 4 := BitVec.ofFin r

/-- Format A, `innn` (R62). -/
def formatA (op : BitVec 4) (nnn : Word) : Word := op ++ nnn.extractLsb' 0 12

/-- Format I, `ixkk`, and format X, where `kk` is a fixed function byte (R62). -/
def formatI (op : BitVec 4) (x : Reg) (kk : Byte) : Word := (op ++ regField x) ++ kk

/-- Format R, `ixyN`, and format D, where the low nibble is the row count (R62). -/
def formatR (op : BitVec 4) (x y : Reg) (low : BitVec 4) : Word := (op ++ regField x) ++ (regField y ++ low)

/-- The word of an instruction, from the table of R64. -/
def encode : Instr → Word
  | .cls => 0x00E0
  | .ret => 0x00EE
  | .jp nnn => formatA 0x1 nnn
  | .call nnn => formatA 0x2 nnn
  | .seImm x kk => formatI 0x3 x kk
  | .sneImm x kk => formatI 0x4 x kk
  | .seReg x y => formatR 0x5 x y 0x0
  | .ldImm x kk => formatI 0x6 x kk
  | .addImm x kk => formatI 0x7 x kk
  | .ldReg x y => formatR 0x8 x y 0x0
  | .orReg x y => formatR 0x8 x y 0x1
  | .andReg x y => formatR 0x8 x y 0x2
  | .xorReg x y => formatR 0x8 x y 0x3
  | .addReg x y => formatR 0x8 x y 0x4
  | .sub x y => formatR 0x8 x y 0x5
  | .shr x y => formatR 0x8 x y 0x6
  | .subn x y => formatR 0x8 x y 0x7
  | .shl x y => formatR 0x8 x y 0xE
  | .sneReg x y => formatR 0x9 x y 0x0
  | .ldI nnn => formatA 0xA nnn
  | .jpV0 nnn => formatA 0xB nnn
  | .rnd x kk => formatI 0xC x kk
  | .drw x y n => formatR 0xD x y (BitVec.ofNat 4 n)
  | .skp x => formatI 0xE x 0x9E
  | .sknp x => formatI 0xE x 0xA1
  | .ldVxDt x => formatI 0xF x 0x07
  | .ldVxK x => formatI 0xF x 0x0A
  | .ldDtVx x => formatI 0xF x 0x15
  | .ldStVx x => formatI 0xF x 0x18
  | .addI x => formatI 0xF x 0x1E
  | .ldF x => formatI 0xF x 0x29
  | .ldB x => formatI 0xF x 0x33
  | .storeRegs x => formatI 0xF x 0x55
  | .loadRegs x => formatI 0xF x 0x65

/-- The row of the opcode map an instruction belongs to: its mask and its match column (R64). A word `w` selects the row
when `w &&& mask = match`. -/
def opcodeRow : Instr → Word × Word
  | .cls => (0xFFFF, 0x00E0)
  | .ret => (0xFFFF, 0x00EE)
  | .jp _ => (0xF000, 0x1000)
  | .call _ => (0xF000, 0x2000)
  | .seImm _ _ => (0xF000, 0x3000)
  | .sneImm _ _ => (0xF000, 0x4000)
  | .seReg _ _ => (0xF00F, 0x5000)
  | .ldImm _ _ => (0xF000, 0x6000)
  | .addImm _ _ => (0xF000, 0x7000)
  | .ldReg _ _ => (0xF00F, 0x8000)
  | .orReg _ _ => (0xF00F, 0x8001)
  | .andReg _ _ => (0xF00F, 0x8002)
  | .xorReg _ _ => (0xF00F, 0x8003)
  | .addReg _ _ => (0xF00F, 0x8004)
  | .sub _ _ => (0xF00F, 0x8005)
  | .shr _ _ => (0xF00F, 0x8006)
  | .subn _ _ => (0xF00F, 0x8007)
  | .shl _ _ => (0xF00F, 0x800E)
  | .sneReg _ _ => (0xF00F, 0x9000)
  | .ldI _ => (0xF000, 0xA000)
  | .jpV0 _ => (0xF000, 0xB000)
  | .rnd _ _ => (0xF000, 0xC000)
  | .drw _ _ _ => (0xF000, 0xD000)
  | .skp _ => (0xF0FF, 0xE09E)
  | .sknp _ => (0xF0FF, 0xE0A1)
  | .ldVxDt _ => (0xF0FF, 0xF007)
  | .ldVxK _ => (0xF0FF, 0xF00A)
  | .ldDtVx _ => (0xF0FF, 0xF015)
  | .ldStVx _ => (0xF0FF, 0xF018)
  | .addI _ => (0xF0FF, 0xF01E)
  | .ldF _ => (0xF0FF, 0xF029)
  | .ldB _ => (0xF0FF, 0xF033)
  | .storeRegs _ => (0xF0FF, 0xF055)
  | .loadRegs _ => (0xF0FF, 0xF065)

/-- The two bytes of an instruction, lowest address first. -/
def encodeBytes (i : Instr) : List Byte := bytesOfWord (encode i)

end Sys2Proof
end

