-- ==== Sys2Proof/Config.lean ====
section
/-!
DEFINITION. What is fixed for the machine (spec/00_scope.md rule R1), the transactions (R2) and the codes (R4, R20) its
boundary names, and the free values: constants without a body, which nothing can evaluate.
-/

namespace Sys2Proof

namespace Config

/-- Bytes of memory; addresses are taken modulo this (R1 `MEM_SIZE`, R41). -/
abbrev memSize : Nat := 4096

/-- Capacity of the return stack in entries (R1 `STACK_DEPTH`). -/
abbrev stackDepth : Nat := 16

/-- Display columns (R1 `DISP_W`). -/
abbrev dispWidth : Nat := 64

/-- Display rows (R1 `DISP_H`). -/
abbrev dispHeight : Nat := 32

/-- Load address of the program and reset value of PC (R1 `PROGRAM_BASE`). -/
abbrev programBase : Word := 0x200#16

/-- Load address of the font table (R1 `FONT_BASE`). -/
abbrev fontBase : Nat := 0

/-- Bytes in the font table (R1 `FONT_LEN`). -/
abbrev fontLen : Nat := 80

/-- Bytes per digit sprite (R1 `FONT_STRIDE`). -/
abbrev fontStride : Nat := 5

/-- Largest program image accepted at reset (R1 `PROGRAM_MAX`, R201). -/
abbrev programMax : Nat := 3584

/-- Free value (R201): byte number `k` of the state that the `n`-th draw leaves unspecified (registers, timers,
memory after a refused RESET). Log 7. -/
opaque unspecByte : Nat → Nat → Byte

/-- Free value (R201): 16-bit word number `k` of the state that the `n`-th draw leaves unspecified. Log 7. -/
opaque unspecWord : Nat → Nat → Word

/-- Free value (R201): the stack depth after a refused RESET, within the bound of R15. Log 7. -/
opaque unspecDepth : Nat → Fin 17

/-- Free value (R201): the pixels after a refused RESET. Log 7. -/
opaque unspecDisplay : Nat → Display

end Config

/-- `FAULT_CAUSE` (R20, R170): one of four values. -/
inductive FaultCause where
  /-- No fatal condition since the last RESET. -/
  | none
  /-- `CALL` at `SP = 16` (R82). -/
  | stackOverflow
  /-- `RET` at `SP = 0` (R80). -/
  | stackUnderflow
  /-- RESET with a program that exceeds the available memory (R201). -/
  | initError
  deriving DecidableEq, Repr

/-- The 2-bit code of a cause (R20, R170). -/
def FaultCause.code : FaultCause → BitVec 2
  | .none => 0
  | .stackOverflow => 1
  | .stackUnderflow => 2
  | .initError => 3

/-- The result code of a STEP (R4). -/
inductive StepCode where
  /-- An instruction of the opcode table completed. -/
  | executed
  /-- The word matched no pattern and was skipped (R67). -/
  | nopUnknown
  /-- The word was `LD Vx, K` and no key was held (R153). -/
  | waitingKey
  /-- A fatal condition was raised (R172). -/
  | fatal (cause : FaultCause)
  /-- The block was already halted (R173). -/
  | ignored
  deriving DecidableEq, Repr

/-- The four transactions of R2. -/
inductive Transaction where
  /-- `RESET(FONT, PROGRAM)` (R200): the font is 80 bytes by its type (decision D14). -/
  | reset (font : Vector Byte 80) (program : List Byte)
  /-- `STEP(rand)` (R66), with its random byte. -/
  | step (rand : Byte)
  /-- `TICK` (R180). -/
  | tick
  /-- `SETKEYS(k)` (R183). -/
  | setKeys (k : Keys)
  deriving DecidableEq, Repr, Inhabited

namespace Config

/-- Free value (R187, R184, decisions D12 and D19): the `n`-th transaction the environment presents that the schedule
does not list, a STEP with its random byte. No body: any sequence of transactions, endless ones included, and any byte
with any STEP may arrive. Logs 5, 6. -/
opaque transaction : Nat → Transaction

/-- Free value (R201): the result code of the last STEP as shown after a refused RESET. Log 7. -/
opaque unspecResult : Nat → Option StepCode

end Config

end Sys2Proof
end

