-- ==== Sys2Proof/Machine/State.lean ====
section
/-!
DEFINITION. The whole state of the block as plain data (spec/10_state.md rules R10 to R20), the inputs of its
transactions (spec/00_scope.md rule R2), the reasons a step can stop, and the state after reset. Operations on the
state are in Ops.lean and the files after it.
-/

namespace Sys2Proof.Machine

/-- `STATUS` (R20). -/
inductive RunStatus where
  | running
  | halted
  deriving DecidableEq, Repr

/-- Reasons for which a step of the machine would stop with a fault. There is none: the fatal conditions of this
hardware have an entry the spec describes (R172, R201), so the model makes them next states (logs 7 and 8; the spec also
allows a fault outcome), and nothing else raises anything (R170, R179). Safe: no behaviour of the hardware is cut off. -/
inductive Fault where
  deriving DecidableEq, Repr

/-- Reasons for which a step has no meaning. -/
inductive Refusal where
  /-- Raised by `exec`'s arm of an instruction that has no meaning yet, with the table's mnemonic. Safe: the model
  stops where the hardware goes on. No arm raises it. -/
  | notModelled (mnemonic : String)
  deriving DecidableEq, Repr

/-- The state. The first fifteen fields are the block's (R10 to R20 and the result code of R3); the last three are
the model's own: the inputs its environment supplies. -/
structure State where
  /-- `V[0..15]`, the general registers; `V[15]` is VF (R10, R11). -/
  v : Vector Byte 16
  /-- `I`, the index register (R12). -/
  i : Word
  /-- `PC`, the program counter (R13). -/
  pc : Word
  /-- `STACK[0..15]`, return addresses, slot 0 the bottom (R14). -/
  stack : Vector Word 16
  /-- `SP`, the stack depth, always in 0..16 (R15). -/
  sp : Fin 17
  /-- `DT`, the delay timer (R16). -/
  dt : Byte
  /-- `ST`, the sound timer (R16). -/
  st : Byte
  /-- `MEM[0..4095]` (R17): the listed bytes, in the canonical form of `Memory.wf`. -/
  mem : List Host.Cell
  /-- `DISP`, the 64 by 32 pixels (R18). -/
  disp : Display
  /-- `KEYS[0..15]`, the key latch (R19). -/
  keys : Keys
  /-- `STATUS` (R20). -/
  status : RunStatus
  /-- `FAULT_CAUSE` (R20). -/
  faultCause : FaultCause
  /-- `FAULT_PC` (R20). -/
  faultPc : Word
  /-- `FAULT_WORD` (R20). -/
  faultWord : Word
  /-- The result code of the last STEP since reset, shown in STATUS_VIEW (R3, R4). Log 9. -/
  result : Option StepCode
  /-- Model's own: the byte presented with the STEP being performed (R2, R184). Log 5. -/
  rand : Byte
  /-- Model's own: how many free values have been drawn; the index of the next one. Log 5. -/
  draws : Nat
  /-- Model's own: the transactions the environment presents next, in the order they are performed (R187, decision
  D12); after them its transactions are free values. Log 6. -/
  schedule : List Transaction
  deriving DecidableEq, Repr

/-- The state right after a successful RESET (R22) with the customary font, which unlisted memory reads as, and the
empty program. Logs 2, 3, 5, 6, 9. -/
def State.reset : State where
  v := Vector.replicate 16 0
  i := 0
  pc := Config.programBase
  stack := Vector.replicate 16 0
  sp := 0
  dt := 0
  st := 0
  mem := []
  disp := Vector.replicate 32 0
  keys := 0
  status := .running
  faultCause := .none
  faultPc := 0
  faultWord := 0
  result := none
  rand := 0
  draws := 0
  schedule := []

end Sys2Proof.Machine
end

