-- ==== Sys2Proof/Machine/Ops.lean ====
section
/-!
DEFINITION. The named operations every meaning and transaction is written with: memory (spec/20_memory.md R41, R42,
R44), registers (R10), the result code and completion (R4), the fatal entry (spec/60_exceptions.md R172), the fetch
(R44), the unknown word (R67) and the halted block (R173).
-/

namespace Sys2Proof.Machine

/-- What a step answers. -/
abbrev Result := Host.Outcome State Fault Refusal

/-! ## Memory -/

/-- The customary font bytes (spec/93_implementation_defined.md G5), digit by digit. PRESUMED, log 3. -/
def customaryFont : List Byte :=
  [0xF0, 0x90, 0x90, 0x90, 0xF0, 0x20, 0x60, 0x20, 0x20, 0x70, 0xF0, 0x10, 0xF0, 0x80, 0xF0, 0xF0, 0x10, 0xF0, 0x10, 0xF0]
    ++ [0x90, 0x90, 0xF0, 0x10, 0x10, 0xF0, 0x80, 0xF0, 0x10, 0xF0, 0xF0, 0x80, 0xF0, 0x90, 0xF0, 0xF0, 0x10, 0x20, 0x40, 0x40]
    ++ [0xF0, 0x90, 0xF0, 0x90, 0xF0, 0xF0, 0x90, 0xF0, 0x10, 0xF0, 0xF0, 0x90, 0xF0, 0x90, 0x90, 0xE0, 0x90, 0xE0, 0x90, 0xE0]
    ++ [0xF0, 0x80, 0x80, 0x80, 0xF0, 0xE0, 0x90, 0x90, 0x90, 0xE0, 0xF0, 0x80, 0xF0, 0x80, 0xF0, 0xF0, 0x80, 0xF0, 0x80, 0x80]

/-- What an address that memory does not list reads as: the customary font in the font area, 0x00 elsewhere (R22).
Logs 3 and 4. -/
def Memory.unlisted (a : Nat) : Byte :=
  if a < Config.fontLen then customaryFont.getD a 0 else 0

/-- The first listed byte at address `a`, else what the address reads as unlisted. -/
def Memory.lookup : List Host.Cell → Nat → Byte
  | [], a => Memory.unlisted a
  | (k, b) :: m, a => if k = a then b else Memory.lookup m a

/-- Memory without a listed byte at `a`. -/
def Memory.erase (m : List Host.Cell) (a : Nat) : List Host.Cell :=
  m.filter (fun c => c.1 ≠ a)

/-- Memory with `b` listed at `a`, before the first listed address above it. -/
def Memory.insert : List Host.Cell → Nat → Byte → List Host.Cell
  | [], a, b => [(a, b)]
  | c :: m, a, b => if a < c.1 then (a, b) :: c :: m else c :: Memory.insert m a b

/-- `MemRead(addr, 1)` (R41): the address is reduced modulo 4096. -/
def Memory.read (m : List Host.Cell) (addr : Nat) : Byte :=
  Memory.lookup m (addr % Config.memSize)

/-- `MemWrite(addr, 1, b)` (R41): the address is reduced modulo 4096; the canonical form is kept. -/
def Memory.write (m : List Host.Cell) (addr : Nat) (b : Byte) : List Host.Cell :=
  let a := addr % Config.memSize
  if b = Memory.unlisted a then Memory.erase m a else Memory.insert (Memory.erase m a) a b

/-- Bytes written at consecutive addresses in ascending order, each address reduced (R42). -/
def Memory.writeBytes : List Host.Cell → Nat → List Byte → List Host.Cell
  | m, _, [] => m
  | m, addr, b :: bs => Memory.writeBytes (Memory.write m addr b) (addr + 1) bs

/-- The canonical form: addresses strictly rising and below 4096, no entry that equals its unlisted value. -/
abbrev Memory.wf (m : List Host.Cell) : Prop :=
  m.Pairwise (fun c d => c.1 < d.1) ∧ ∀ c ∈ m, c.1 < Config.memSize ∧ c.2 ≠ Memory.unlisted c.1

/-! ## Registers -/

/-- VF, the flag register (R11). -/
abbrev vf : Reg := 15

/-- `V[r]` (R10). -/
def State.reg (s : State) (r : Reg) : Byte := s.v[r.val]

/-- `V[r] <- b` (R10). -/
def State.setReg (s : State) (r : Reg) (b : Byte) : State := { s with v := s.v.set r.val b }

/-- `I <- w` (R12). -/
def State.setI (s : State) (w : Word) : State := { s with i := w }

/-- `PC <- w` (R13). -/
def State.setPc (s : State) (w : Word) : State := { s with pc := w }

/-- The STEP's result code (R4). -/
def State.setResult (s : State) (c : StepCode) : State := { s with result := some c }

/-- The instruction completed (R4 `EXECUTED`). -/
def done (s : State) : Result := .next (s.setResult .executed)

/-! ## The fatal entry -/

/-- `pc0`, the address of the instruction executing in a state where `PC = npc` (R66). -/
def State.pc0 (s : State) : Word := s.pc - 2

/-- The fatal entry (R172): the block halts and the latches take the cause, the address and the word of the faulting
instruction; PC keeps `npc`, nothing else changes. There is no return from it (R174). -/
def fatal (cause : FaultCause) (w : Word) (s : State) : Result :=
  .next { s with
    status := .halted, faultCause := cause, faultPc := s.pc0, faultWord := w, result := some (.fatal cause) }

/-! ## Fetch -/

/-- The word at PC: the high byte at `PC`, the low byte at `PC + 1`, each address reduced (R44). -/
def fetchWord (s : State) : Word :=
  wordOfBytes (Memory.read s.mem s.pc.toNat) (Memory.read s.mem (s.pc.toNat + 1))

/-- The fetch advance: `PC <- (PC + 2) mod 65536` (R44, R13). -/
def advance (s : State) : State := s.setPc (s.pc + 2)

/-- The rest of a STEP whose word selects no row, after the advance: nothing changes (R67). -/
def skipUnknown (s : State) : Result := .next (s.setResult .nopUnknown)

/-- A STEP of a halted block: nothing changes (R173). -/
def ignoreStep (s : State) : Result := .next (s.setResult .ignored)

/-- `w` stored where the next STEP fetches: high byte at `PC`, low byte at `PC + 1` (R44). -/
def placeWord (s : State) (w : Word) : State :=
  { s with mem := Memory.writeBytes s.mem s.pc.toNat (bytesOfWord w) }

/-- The block made ready to fetch: running, and with one STEP presented, whose byte is the one already at the input
(log 14). -/
def readyToFetch (s : State) : State := { s with status := .running, schedule := [.step s.rand] }

/-! ## The next transaction -/

/-- The next transaction of the environment (R187): the head of the schedule; with nothing scheduled, a free value, so
that every schedule, endless ones included, is one of the model's. Log 6. -/
def nextTransaction (s : State) : Transaction :=
  match s.schedule with
  | [] => Config.transaction s.draws
  | tr :: _ => tr

/-- The block with its next transaction taken: off the schedule, or, when it was a free value, counted as drawn. -/
def takeTransaction (s : State) : State :=
  { s with schedule := s.schedule.tail, draws := if s.schedule.isEmpty then s.draws + 1 else s.draws }

end Sys2Proof.Machine
end

