-- ==== Sys2Proof/Machine/Operands.lean ====
section
/-!
DEFINITION. The operand forms: the bytes at `I` (spec/42_index_and_memory.md R126), the register range `0..x` (R124,
R125), the decimal digits (R123), the key a register selects (spec/44_keys_and_timers.md R156), the lowest held key
(R153), and the skip (spec/40_control_flow.md R89).
-/

namespace Sys2Proof.Machine

/-- The address of byte `k` of a memory operand: `I + k`, formed without truncation; the access reduces it
modulo 4096 (R126, R41). -/
def State.operandAddr (s : State) (k : Nat) : Nat := s.i.toNat + k

/-- The byte at `I + k` (R126). -/
def State.operandByte (s : State) (k : Nat) : Byte := Memory.read s.mem (s.operandAddr k)

/-- Bytes stored at `I`, `I + 1`, ... (R126, R42). -/
def State.storeOperand (s : State) (bytes : List Byte) : State :=
  { s with mem := Memory.writeBytes s.mem (s.operandAddr 0) bytes }

/-- The values of `V[0]` to `V[x]`, inclusive, in ascending order (R124). -/
def State.regsUpTo (s : State) (x : Reg) : List Byte := s.v.toList.take (x.val + 1)

/-- `V[k] <- MemRead(I + k, 1)` for `k` in `0..x`, inclusive; the other registers stay (R125). -/
def State.loadUpTo (s : State) (x : Reg) : State :=
  { s with v := Vector.ofFn fun k : Reg => if k.val ≤ x.val then s.operandByte k.val else s.reg k }

/-- Hundreds, tens and ones of a byte, each a value 0..9 (R123). -/
def decimalDigits (b : Byte) : List Byte :=
  [BitVec.ofNat 8 (b.toNat / 100), BitVec.ofNat 8 (b.toNat / 10 % 10), BitVec.ofNat 8 (b.toNat % 10)]

/-- Whether the key that the low nibble of `b` selects is held (R156). -/
def keyHeld (keys : Keys) (b : Byte) : Bool := keys.getLsbD (b.toNat % 16)

/-- The lowest-indexed held key, if any (R153). -/
def lowestKey (keys : Keys) : Option Nat := (List.range 16).find? (fun k => keys.getLsbD k)

/-- The instruction completes and, when the condition holds, skips one word: `PC <- (PC + 2) mod 65536` (R89). -/
def skipIf (c : Bool) (s : State) : Result := done (if c then s.setPc (s.pc + 2) else s)

end Sys2Proof.Machine
end

