-- ==== Sys2Proof/Machine/ControlFlow.lean ====
section
/-!
DEFINITION. Control transfer (spec/40_control_flow.md). Each meaning starts in a state with `PC = npc` (R66).
-/

namespace Sys2Proof.Machine

/-- `RET` (R80): the popped entry keeps its value in its slot (R14). -/
def execRet (s : State) : Result :=
  match s.sp with
  | ⟨0, _⟩ => fatal .stackUnderflow (encode .ret) s
  | ⟨d + 1, h⟩ => done { s with sp := ⟨d, by omega⟩, pc := s.stack[d]'(by omega) }

/-- `JP nnn` (R81). -/
def execJp (nnn : Word) (s : State) : Result := done (s.setPc nnn)

/-- `CALL nnn` (R82): pushes `npc`, all 16 bits. -/
def execCall (nnn : Word) (s : State) : Result :=
  if h : s.sp.val < Config.stackDepth then
    done { s with stack := s.stack.set s.sp.val s.pc h, sp := ⟨s.sp.val + 1, Nat.succ_lt_succ h⟩, pc := nnn }
  else fatal .stackOverflow (encode (.call nnn)) s

/-- `SE Vx, kk` (R83). -/
def execSeImm (x : Reg) (kk : Byte) (s : State) : Result := skipIf (s.reg x == kk) s

/-- `SNE Vx, kk` (R84). -/
def execSneImm (x : Reg) (kk : Byte) (s : State) : Result := skipIf (s.reg x != kk) s

/-- `SE Vx, Vy` (R85). -/
def execSeReg (x y : Reg) (s : State) : Result := skipIf (s.reg x == s.reg y) s

/-- `SNE Vx, Vy` (R86). -/
def execSneReg (x y : Reg) (s : State) : Result := skipIf (s.reg x != s.reg y) s

/-- `JP V0, nnn` (R87): the sum is not reduced to 12 bits. -/
def execJpV0 (nnn : Word) (s : State) : Result := done (s.setPc (nnn + (s.reg 0).setWidth 16))

end Sys2Proof.Machine
end

