-- ==== Sys2Proof/Machine/Flags.lean ====
section
/-!
DEFINITION. The flag computations (spec/41_load_and_alu.md R106 to R113, spec/10_state.md R11). The only flag is the
value of VF, 0 or 1.
-/

namespace Sys2Proof.Machine

/-- A condition as the flag value 0 or 1. -/
def flagByte (c : Bool) : Byte := if c then 1 else 0

/-- Carry out of an 8-bit sum (R106): the 9-bit sum exceeds 255. -/
def carryFlag (a b : Byte) : Byte := flagByte (a.toNat + b.toNat > 255)

/-- NOT borrow of `a - b` (R107, R109): `a >= b`. -/
def notBorrowFlag (a b : Byte) : Byte := flagByte (a.toNat ≥ b.toNat)

/-- The bit a right shift moves out (R108): bit 0. -/
def lowBitFlag (a : Byte) : Byte := flagByte (a.getLsbD 0)

/-- The bit a left shift moves out (R110): bit 7. -/
def highBitFlag (a : Byte) : Byte := flagByte (a.getLsbD 7)

/-- Result to `V[x]`, then the flag to VF last (R11, R113). -/
def State.setResultFlag (s : State) (x : Reg) (value flag : Byte) : State :=
  (s.setReg x value).setReg vf flag

end Sys2Proof.Machine
end

