-- ==== Sys2Proof/Machine/Display.lean ====
section
/-!
DEFINITION. The display and its compositor (spec/43_display.md).
-/

namespace Sys2Proof.Machine

/-- All 2048 pixels unlit (R140). -/
def blankDisplay : Display := Vector.replicate 32 0

/-- `DISP[row*64 + col]` (R18), the coordinates reduced as R142 says. -/
def pixelAt (d : Display) (col row : Nat) : Bool :=
  (d[row % Config.dispHeight]'(Nat.mod_lt _ (by decide))).getLsbD (col % Config.dispWidth)

/-- The row word whose only set bit is column `c`. -/
def columnBit (c : Nat) : PixelRow := 1#64 <<< c

/-- `DISP[row*64 + col] <- DISP[row*64 + col] ^ bit`, the coordinates reduced as R142 says. -/
def xorPixel (d : Display) (col row : Nat) (bit : Bool) : Display :=
  let r := row % Config.dispHeight
  if bit then
    d.set r ((d[r]'(Nat.mod_lt _ (by decide))) ^^^ columnBit (col % Config.dispWidth)) (Nat.mod_lt _ (by decide))
  else d

/-- The sprite bit of column `dx`: bit 7 of the row byte is the leftmost pixel (R143). -/
def spriteBit (b : Byte) (dx : Nat) : Bool := b.getLsbD (7 - dx)

/-- One pixel of R141: a collision is a set sprite bit over a lit pixel (R144). The pair is the display and whether a
collision has occurred. -/
def drawPixel (vx vy : Nat) (b : Byte) (r : Nat) (acc : Display × Bool) (dx : Nat) : Display × Bool :=
  let bit := spriteBit b dx
  (xorPixel acc.1 (vx + dx) (vy + r) bit, acc.2 || (bit && pixelAt acc.1 (vx + dx) (vy + r)))

/-- One sprite row: `dx` from 0 to 7 (R141). -/
def drawRow (vx vy : Nat) (byteAt : Nat → Byte) (acc : Display × Bool) (r : Nat) : Display × Bool :=
  (List.range 8).foldl (drawPixel vx vy (byteAt r) r) acc

/-- The compositor (R141): rows 0 to `n - 1` of the sprite whose row bytes `byteAt` gives, origin `(vx, vy)`. The sums
`vx + dx` and `vy + r` are formed without truncation (R142). -/
def drawSprite (vx vy : Nat) (byteAt : Nat → Byte) (n : Nat) (d : Display) : Display × Bool :=
  (List.range n).foldl (drawRow vx vy byteAt) (d, false)

/-- `CLS` (R140): VF is not written. -/
def execCls (s : State) : Result := done { s with disp := blankDisplay }

/-- `DRW Vx, Vy, n` (R141): the origin is read before VF is written; VF is the collision flag (R144). -/
def execDrw (x y : Reg) (n : Nat) (s : State) : Result :=
  let drawn := drawSprite (s.reg x).toNat (s.reg y).toNat s.operandByte n s.disp
  done (({ s with disp := drawn.1 } : State).setReg vf (flagByte drawn.2))

end Sys2Proof.Machine
end

