-- ==== Sys2Proof/Machine/IndexMemory.lean ====
section
/-!
DEFINITION. The index register and memory (spec/42_index_and_memory.md). No memory access changes `I` (R126); none of
these writes a flag.
-/

namespace Sys2Proof.Machine

/-- `LD I, nnn` (R120). -/
def execLdI (nnn : Word) (s : State) : Result := done (s.setI nnn)

/-- `ADD I, Vx` (R121): 16-bit sum modulo 65536. -/
def execAddI (x : Reg) (s : State) : Result := done (s.setI (s.i + (s.reg x).setWidth 16))

/-- `LD F, Vx` (R122): the whole byte times 5, from the font base. -/
def execLdF (x : Reg) (s : State) : Result :=
  done (s.setI (BitVec.ofNat 16 (Config.fontBase + (s.reg x).toNat * Config.fontStride)))

/-- `LD B, Vx` (R123): hundreds at `I`, tens at `I + 1`, ones at `I + 2`. -/
def execLdB (x : Reg) (s : State) : Result := done (s.storeOperand (decimalDigits (s.reg x)))

/-- `LD [I], Vx` (R124): `V[0]` to `V[x]`, inclusive. -/
def execStoreRegs (x : Reg) (s : State) : Result := done (s.storeOperand (s.regsUpTo x))

/-- `LD Vx, [I]` (R125): `V[0]` to `V[x]`, inclusive. -/
def execLoadRegs (x : Reg) (s : State) : Result := done (s.loadUpTo x)

end Sys2Proof.Machine
end

