-- ==== Sys2Proof/Machine/KeysTimers.lean ====
section
/-!
DEFINITION. Keys and timers (spec/44_keys_and_timers.md). None of these writes a flag or touches memory.
-/

namespace Sys2Proof.Machine

/-- `SKP Vx` (R150). -/
def execSkp (x : Reg) (s : State) : Result := skipIf (keyHeld s.keys (s.reg x)) s

/-- `SKNP Vx` (R151). -/
def execSknp (x : Reg) (s : State) : Result := skipIf (!keyHeld s.keys (s.reg x)) s

/-- `LD Vx, DT` (R152). -/
def execLdVxDt (x : Reg) (s : State) : Result := done (s.setReg x s.dt)

/-- `LD Vx, K` (R153): with no key held the fetch advance is undone and nothing else changes; else the lowest held
key is loaded. -/
def execLdVxK (x : Reg) (s : State) : Result :=
  match lowestKey s.keys with
  | none => .next ((s.setPc s.pc0).setResult .waitingKey)
  | some k => done (s.setReg x (BitVec.ofNat 8 k))

/-- `LD DT, Vx` (R154). -/
def execLdDtVx (x : Reg) (s : State) : Result := done { s with dt := s.reg x }

/-- `LD ST, Vx` (R155). -/
def execLdStVx (x : Reg) (s : State) : Result := done { s with st := s.reg x }

end Sys2Proof.Machine
end

