-- ==== Sys2Proof/Machine/LoadAlu.lean ====
section
/-!
DEFINITION. Register loads and the ALU (spec/41_load_and_alu.md). All operands are read before anything is written.
-/

namespace Sys2Proof.Machine

/-- `LD Vx, kk` (R100). -/
def execLdImm (x : Reg) (kk : Byte) (s : State) : Result := done (s.setReg x kk)

/-- `ADD Vx, kk` (R101): no flag. -/
def execAddImm (x : Reg) (kk : Byte) (s : State) : Result := done (s.setReg x (s.reg x + kk))

/-- `LD Vx, Vy` (R102). -/
def execLdReg (x y : Reg) (s : State) : Result := done (s.setReg x (s.reg y))

/-- `OR Vx, Vy` (R103): no flag. -/
def execOrReg (x y : Reg) (s : State) : Result := done (s.setReg x (s.reg x ||| s.reg y))

/-- `AND Vx, Vy` (R104): no flag. -/
def execAndReg (x y : Reg) (s : State) : Result := done (s.setReg x (s.reg x &&& s.reg y))

/-- `XOR Vx, Vy` (R105): no flag. -/
def execXorReg (x y : Reg) (s : State) : Result := done (s.setReg x (s.reg x ^^^ s.reg y))

/-- `ADD Vx, Vy` (R106): VF is the carry out. -/
def execAddReg (x y : Reg) (s : State) : Result :=
  let a := s.reg x
  let b := s.reg y
  done (s.setResultFlag x (a + b) (carryFlag a b))

/-- `SUB Vx, Vy` (R107): VF is NOT borrow of `Vx - Vy`. -/
def execSub (x y : Reg) (s : State) : Result :=
  let a := s.reg x
  let b := s.reg y
  done (s.setResultFlag x (a - b) (notBorrowFlag a b))

/-- `SHR Vx` (R108): logical, in place; the `y` field is ignored (R69). -/
def execShr (x _y : Reg) (s : State) : Result :=
  let a := s.reg x
  done (s.setResultFlag x (a >>> 1) (lowBitFlag a))

/-- `SUBN Vx, Vy` (R109): VF is NOT borrow of `Vy - Vx`. -/
def execSubn (x y : Reg) (s : State) : Result :=
  let a := s.reg x
  let b := s.reg y
  done (s.setResultFlag x (b - a) (notBorrowFlag b a))

/-- `SHL Vx` (R110): in place; the `y` field is ignored (R69). -/
def execShl (x _y : Reg) (s : State) : Result :=
  let a := s.reg x
  done (s.setResultFlag x (a <<< 1) (highBitFlag a))

/-- `RND Vx, kk` (R111): the STEP's random byte masked. -/
def execRnd (x : Reg) (kk : Byte) (s : State) : Result := done (s.setReg x (s.rand &&& kk))

end Sys2Proof.Machine
end

