-- ==== Sys2Proof/Machine/Transactions.lean ====
section
/-!
DEFINITION. The transactions other than STEP: RESET (spec/70_reset_and_hazards.md R200, R201), TICK
(spec/60_exceptions.md R180) and SETKEYS (R183). None depends on `STATUS` (R173). RESET keeps the three fields that
are the environment's and not the block's: `rand`, `draws`, `schedule` (log 22).
-/

namespace Sys2Proof.Machine

/-- Memory after a RESET: the font at 0x000, the program at 0x200, 0x00 elsewhere (R200). The empty list stands for
the zero fill: it differs from it only in the font area, all of which the font overwrites. -/
def resetMemory (font : Vector Byte 80) (program : List Byte) : List Host.Cell :=
  Memory.writeBytes (Memory.writeBytes [] Config.fontBase font.toList) Config.programBase.toNat program

/-- An accepted RESET (R200): the old state is discarded. -/
def acceptReset (font : Vector Byte 80) (program : List Byte) (s : State) : State :=
  { State.reset with
    mem := resetMemory font program, rand := s.rand, draws := s.draws, schedule := s.schedule }

/-- Memory that draw `n` leaves unspecified: 4096 free bytes (R201). Log 7. -/
def unspecMemory (n : Nat) : List Host.Cell :=
  Memory.writeBytes [] 0 ((List.range Config.memSize).map fun a => Config.unspecByte n (a + 18))

/-- A refused RESET (R201 `InitError`): halted with cause 3, and every other piece of state unspecified, hence a free
value of draw `s.draws`. Log 7. -/
def refuseReset (s : State) : State :=
  { v := Vector.ofFn fun r : Reg => Config.unspecByte s.draws r.val
    i := Config.unspecWord s.draws 0
    pc := Config.unspecWord s.draws 1
    stack := Vector.ofFn fun k : Fin 16 => Config.unspecWord s.draws (k.val + 2)
    sp := Config.unspecDepth s.draws
    dt := Config.unspecByte s.draws 16
    st := Config.unspecByte s.draws 17
    mem := unspecMemory s.draws
    disp := Config.unspecDisplay s.draws
    keys := Config.unspecWord s.draws 18
    status := .halted
    faultCause := .initError
    faultPc := 0
    faultWord := 0
    result := Config.unspecResult s.draws
    rand := s.rand
    draws := s.draws + 1
    schedule := s.schedule }

/-- `RESET(FONT, PROGRAM)` (R200, R201): refused when the program exceeds the available memory. -/
def performReset (font : Vector Byte 80) (program : List Byte) (s : State) : State :=
  if program.length ≤ Config.programMax then acceptReset font program s else refuseReset s

/-- A timer decremented if it is greater than 0, else left at 0 (R180). -/
def countDown (t : Byte) : Byte := if t.toNat > 0 then t - 1 else t

/-- `TICK` (R180): both timers, independently; nothing else. -/
def performTick (s : State) : State := { s with dt := countDown s.dt, st := countDown s.st }

/-- `SETKEYS(k)` (R183): the whole key latch at once; nothing else. -/
def performSetKeys (k : Keys) (s : State) : State := { s with keys := k }

end Sys2Proof.Machine
end

