-- ==== Sys2Proof/Machine/Cycle.lean ====
section
/-!
DEFINITION. One STEP (spec/30_encoding.md R66), one transaction of any of the four kinds (spec/00_scope.md R2), and
the next transaction of the block (spec/60_exceptions.md R187).
-/

namespace Sys2Proof.Machine

/-- `STEP` with the byte `s.rand` (R66): nothing when halted; else fetch, advance, and execute the word fetched, or
skip it when it selects no row. -/
def performStep (s : State) : Result :=
  match s.status with
  | .halted => ignoreStep s
  | .running =>
    match decodeWord (fetchWord s) with
    | .ok i => exec i (advance s)
    | .error _ => skipUnknown (advance s)

/-- One transaction, performed whole (R2). -/
def perform : Transaction → State → Result
  | .reset font program, s => .next (performReset font program s)
  | .step r, s => performStep { s with rand := r }
  | .tick, s => .next (performTick s)
  | .setKeys k, s => .next (performSetKeys k s)

/-- The next transaction (R187), performed whole. -/
def performNext (s : State) : Result := perform (nextTransaction s) (takeTransaction s)

end Sys2Proof.Machine
end

