-- ==== Sys2Proof/Machine/Step.lean ====
section
/-!
DEFINITION. The step of the machine: one transaction of the block (spec/60_exceptions.md R187).
-/

namespace Sys2Proof.Machine

/-- One transaction: the head of the schedule, or a STEP (R187, R66). -/
def step (s : State) : Host.Outcome State Fault Refusal := performNext s

/-- `s` with the table word `w` of `nbits` bits stored where the next transaction, a STEP, fetches it. Logs 13, 14. -/
def State.withFetchWord (s : State) (nbits w : Nat) : State := placeWord (readyToFetch s) (tableWord nbits w)

end Sys2Proof.Machine
end

