-- ==== Sys2Proof/Machine/Views.lean ====
section
/-!
DEFINITION. The three read-only views (spec/00_scope.md R3): pure functions of the state. The stack contents, the
memory and the key latch are in none of them.
-/

namespace Sys2Proof.Machine

/-- `DISPLAY_VIEW` (R3, R185): the 2048 pixel bits, row-major: entry `row*64 + col`. -/
def displayView (s : State) : List Bool :=
  (List.range (Config.dispWidth * Config.dispHeight)).map fun k =>
    pixelAt s.disp (k % Config.dispWidth) (k / Config.dispWidth)

/-- What `DEBUG_VIEW` shows (R3, R190). -/
structure DebugView where
  v : Vector Byte 16
  pc : Word
  sp : Fin 17
  i : Word
  dt : Byte
  st : Byte
  deriving DecidableEq, Repr

/-- `DEBUG_VIEW` (R3, R190). -/
def debugView (s : State) : DebugView :=
  { v := s.v, pc := s.pc, sp := s.sp, i := s.i, dt := s.dt, st := s.st }

/-- What `STATUS_VIEW` shows (R3): the latches and the result code of the last STEP; the cause as its code (R20). -/
structure StatusView where
  status : RunStatus
  faultCause : BitVec 2
  faultPc : Word
  faultWord : Word
  result : Option StepCode
  deriving DecidableEq, Repr

/-- `STATUS_VIEW` (R3). -/
def statusView (s : State) : StatusView :=
  { status := s.status, faultCause := s.faultCause.code, faultPc := s.faultPc, faultWord := s.faultWord
    result := s.result }

end Sys2Proof.Machine
end

