-- ==== Sys2Proof/Safety.lean ====
section
/-!
DEFINITION. What claims say about states: the invariant that every transaction keeps, and the three quiescent
conditions of spec/60_exceptions.md R191.
-/

namespace Sys2Proof.Machine

/-- The run status and the fault latches agree: running exactly when no cause is latched (R20, R172, R173); after a
fatal `CALL` the stack is full and `FAULT_WORD` is a `2nnn` word, after a fatal `RET` it is empty and the word is
`00EE` (R80, R82), with PC two past `FAULT_PC` (R172); after a refused RESET the latches are 0 (R201). -/
def State.latchesAgree (s : State) : Prop :=
  match s.faultCause with
  | .none => s.status = .running ∧ s.faultPc = 0 ∧ s.faultWord = 0
  | .stackOverflow => s.status = .halted ∧ s.sp = 16 ∧ fieldOp s.faultWord = 2 ∧ s.pc = s.faultPc + 2
  | .stackUnderflow => s.status = .halted ∧ s.sp = 0 ∧ s.faultWord = 0x00EE ∧ s.pc = s.faultPc + 2
  | .initError => s.status = .halted ∧ s.faultPc = 0 ∧ s.faultWord = 0

/-- The invariant of the block: memory in its canonical form, which is the model's own representation (log 4), status and
latches in agreement (decision D10, log 8). -/
def State.Inv (s : State) : Prop := Memory.wf s.mem ∧ s.latchesAgree

/-- Halted (R191 (a), R173). -/
def State.halted (s : State) : Prop := s.status = .halted

/-- Waiting for a key (R189): running, the word at PC is `LD Vx, K`, no key held. -/
def State.waitingForKey (s : State) : Prop :=
  s.status = .running ∧ (∃ x, decodeWord (fetchWord s) = .ok (.ldVxK x)) ∧ s.keys = 0

/-- The self-jump, the conventional end of a program (R191 (c), R208). -/
def State.selfJump (s : State) : Prop := s.status = .running ∧ decodeWord (fetchWord s) = .ok (.jp s.pc)

end Sys2Proof.Machine
end

