-- ==== Sys2Proof/Certificates/Slice0/Obligations.lean ====
section
/-!
DEFINITION. The statements for the provers. A frame is written as an equation: `{ t with v := s.v, result := s.result } = s`
says that `t` agrees with `s` in every field but the general registers and the result code, the listed memory (hence
every byte a read gives), every special register and latch, and the model's own inputs among them.
-/

namespace Sys2Proof.Claims

open Sys2Proof Sys2Proof.Machine

/-- `i` completes in `s`: `V[x]` takes `value`, every other register stays, every byte of memory reads as before, and
nothing else changes but the result code, which is EXECUTED. -/
def WritesRegister (i : Instr) (s : State) (x : Reg) (value : Nat) : Prop :=
  ∃ t, exec i s = .next t ∧ (t.reg x).toNat = value ∧ (∀ r, r ≠ x → t.reg r = s.reg r) ∧
    (∀ a, Memory.read t.mem a = Memory.read s.mem a) ∧
    { t with v := s.v, result := s.result } = s ∧ t.result = some .executed

/-- `i` completes in `s`: VF ends as `flag`, `V[x]` takes `value` when it is not VF itself, every third register stays,
every byte of memory reads as before, and nothing else changes but the result code. -/
def WritesRegisterAndFlag (i : Instr) (s : State) (x : Reg) (value flag : Nat) : Prop :=
  ∃ t, exec i s = .next t ∧ (t.reg vf).toNat = flag ∧ (x ≠ vf → (t.reg x).toNat = value) ∧
    (∀ r, r ≠ x → r ≠ vf → t.reg r = s.reg r) ∧
    (∀ a, Memory.read t.mem a = Memory.read s.mem a) ∧
    { t with v := s.v, result := s.result } = s ∧ t.result = some .executed

/-- `i` completes in `s`: `I` takes `value`, every byte of memory reads as before, and nothing else changes but the
result code. -/
def WritesIndex (i : Instr) (s : State) (value : Nat) : Prop :=
  ∃ t, exec i s = .next t ∧ t.i.toNat = value ∧ (∀ a, Memory.read t.mem a = Memory.read s.mem a) ∧
    { t with i := s.i, result := s.result } = s ∧ t.result = some .executed

/-- `i` completes in `s`: `PC` takes `value`, every byte of memory reads as before, and nothing else changes but the
result code. -/
def WritesPc (i : Instr) (s : State) (value : Nat) : Prop :=
  ∃ t, exec i s = .next t ∧ t.pc.toNat = value ∧ (∀ a, Memory.read t.mem a = Memory.read s.mem a) ∧
    { t with pc := s.pc, result := s.result } = s ∧ t.result = some .executed

/-- PC after a skip whose condition is `c`, from a PC that is already `npc`. -/
def afterSkip (c : Prop) [Decidable c] (npc : Word) : Nat := if c then (npc.toNat + 2) % 65536 else npc.toNat

/-- `i` completes in `s`, storing `byteAt 0` to `byteAt (n - 1)` at the operand addresses `I`, `I + 1`, ... (the address
function the meaning uses); every address outside those bytes reads as before and nothing else changes but the result
code. -/
def StoresAtIndex (i : Instr) (s : State) (n : Nat) (byteAt : Nat → Nat) : Prop :=
  ∃ t, exec i s = .next t ∧ (∀ k < n, (Memory.read t.mem (s.operandAddr k)).toNat = byteAt k) ∧
    (∀ a, (∀ k < n, a % 4096 ≠ s.operandAddr k % 4096) → Memory.read t.mem a = Memory.read s.mem a) ∧
    { t with mem := s.mem, result := s.result } = s ∧ t.result = some .executed

/-- Sprite pixel `(dx, dy)` of an `n`-row sprite at `I` with origin `(V[x], V[y])` has its bit set and lands on column
`col`, row `row`: the mask `S` of R145, in the words of R142 and R143. -/
def SpriteSets (s : State) (x y : Reg) (n col row : Nat) : Prop :=
  ∃ dy < n, ∃ dx < 8, (s.operandByte dy).getLsbD (7 - dx) = true ∧
    ((s.reg x).toNat + dx) % 64 = col ∧ ((s.reg y).toNat + dy) % 32 = row

/-- The registers an instruction may write: its destination, the range `0..x` of the block load, and VF for the six
instructions of R11. -/
def mayWriteReg : Instr → Reg → Bool
  | .ldImm x _, r | .addImm x _, r | .ldReg x _, r | .orReg x _, r | .andReg x _, r | .xorReg x _, r
  | .rnd x _, r | .ldVxDt x, r | .ldVxK x, r => r == x
  | .addReg x _, r | .sub x _, r | .shr x _, r | .subn x _, r | .shl x _, r => r == x || r == vf
  | .drw _ _ _, r => r == vf
  | .loadRegs x, r => r.val ≤ x.val
  | .cls, _ | .ret, _ | .jp _, _ | .call _, _ | .seImm _ _, _ | .sneImm _ _, _ | .seReg _ _, _ | .sneReg _ _, _
  | .ldI _, _ | .jpV0 _, _ | .skp _, _ | .sknp _, _ | .ldDtVx _, _ | .ldStVx _, _ | .addI _, _ | .ldF _, _
  | .ldB _, _ | .storeRegs _, _ => false

/-- The instructions that write PC (R88). -/
def mayWritePc : Instr → Bool
  | .ret | .jp _ | .call _ | .jpV0 _ | .seImm _ _ | .sneImm _ _ | .seReg _ _ | .sneReg _ _ | .skp _ | .sknp _
  | .ldVxK _ => true
  | .cls | .ldImm _ _ | .addImm _ _ | .ldReg _ _ | .orReg _ _ | .andReg _ _ | .xorReg _ _ | .addReg _ _ | .sub _ _
  | .shr _ _ | .subn _ _ | .shl _ _ | .ldI _ | .rnd _ _ | .drw _ _ _ | .ldVxDt _ | .ldDtVx _ | .ldStVx _ | .addI _
  | .ldF _ | .ldB _ | .storeRegs _ | .loadRegs _ => false

/-- The mask and match columns of the opcode map (R64), row by row. -/
def opcodeRows : List (Word × Word) :=
  [(0xFFFF, 0x00E0), (0xFFFF, 0x00EE), (0xF000, 0x1000), (0xF000, 0x2000), (0xF000, 0x3000), (0xF000, 0x4000)]
    ++ [(0xF00F, 0x5000), (0xF000, 0x6000), (0xF000, 0x7000), (0xF00F, 0x8000), (0xF00F, 0x8001), (0xF00F, 0x8002)]
    ++ [(0xF00F, 0x8003), (0xF00F, 0x8004), (0xF00F, 0x8005), (0xF00F, 0x8006), (0xF00F, 0x8007), (0xF00F, 0x800E)]
    ++ [(0xF00F, 0x9000), (0xF000, 0xA000), (0xF000, 0xB000), (0xF000, 0xC000), (0xF000, 0xD000), (0xF0FF, 0xE09E)]
    ++ [(0xF0FF, 0xE0A1), (0xF0FF, 0xF007), (0xF0FF, 0xF00A), (0xF0FF, 0xF015), (0xF0FF, 0xF018), (0xF0FF, 0xF01E)]
    ++ [(0xF0FF, 0xF029), (0xF0FF, 0xF033), (0xF0FF, 0xF055), (0xF0FF, 0xF065)]

end Sys2Proof.Claims

open Sys2Proof Sys2Proof.Machine Sys2Proof.Claims

/-! ## Encoding and decoding

The numbers of the opcode map are the spec's decision D3 (log 1), the low nibble 0 of `5xy0` and `9xy0` its decision D6
(log 19, DEDUCED); every statement of this section rests on both. -/

/-- R64, R61, R63: the decoder reads back every instruction the encoding can write, every operand at every value. -/
def Obligations.DecodeOfEncodeIsIdentity : Prop :=
  ∀ i : Instr, i.WellFormed → decodeWord (encode i) = .ok i

/-- R64, R69: no bit of an accepted word is dropped: the word is the encoding of what it decodes to, and every decoded
instruction is well-formed. -/
def Obligations.EncodeOfDecodeIsIdentity : Prop :=
  ∀ (w : Word) (i : Instr), decodeWord w = .ok i → i.WellFormed ∧ encode i = w

/-- R64: a word decodes exactly when it selects a row of the table. -/
def Obligations.DecoderAcceptsExactlyTheTableRows : Prop :=
  ∀ w : Word, (∃ i, decodeWord w = .ok i) ↔ ∃ row ∈ opcodeRows, w &&& row.1 = row.2

/-- R65: a word that decodes to `i` selects one row of the table and no other, the row of `i`; a word that the decoder
refuses selects none. So no word satisfies two rows. -/
def Obligations.TableRowsAreDisjoint : Prop :=
  ∀ w : Word,
    (∀ i, decodeWord w = .ok i → (opcodeRows.filter fun row => w &&& row.1 = row.2) = [opcodeRow i]) ∧
    (∀ e, decodeWord w = .error e → (opcodeRows.filter fun row => w &&& row.1 = row.2) = [])

/-- R68: the six classes of unknown words, each refused under its own name and nothing else refused. -/
def Obligations.UnknownWordsAreTheSixClasses : Prop :=
  ∀ w : Word,
    (decodeWord w = .error .zeroGroup ↔ w.toNat / 4096 = 0 ∧ w.toNat ≠ 0x00E0 ∧ w.toNat ≠ 0x00EE) ∧
    (decodeWord w = .error .skipEqualGroup ↔ w.toNat / 4096 = 5 ∧ w.toNat % 16 ≠ 0) ∧
    (decodeWord w = .error .aluGroup ↔ w.toNat / 4096 = 8 ∧ 8 ≤ w.toNat % 16 ∧ w.toNat % 16 ≠ 14) ∧
    (decodeWord w = .error .skipNotEqualGroup ↔ w.toNat / 4096 = 9 ∧ w.toNat % 16 ≠ 0) ∧
    (decodeWord w = .error .keyGroup ↔
      w.toNat / 4096 = 14 ∧ w.toNat % 256 ≠ 0x9E ∧ w.toNat % 256 ≠ 0xA1) ∧
    (decodeWord w = .error .miscGroup ↔
      w.toNat / 4096 = 15 ∧ w.toNat % 256 ∉ [0x07, 0x0A, 0x15, 0x18, 0x1E, 0x29, 0x33, 0x55, 0x65]) ∧
    decodeWord w ≠ .error .truncated

/-- R64: nine words, of every family one at least, written out from their patterns, decode to the instruction they stand for (numbers
and byte order: decisions D3 and D2, log 1), and one, 5341, is refused as an unknown word (decision D6, log 19,
DEDUCED). -/
def Obligations.SampleWordsDecode : Prop :=
  decodeBytes [0x00, 0xEE] = .ok (.ret, []) ∧ decodeBytes [0x2A, 0xBC] = .ok (.call 0x0ABC, []) ∧
  decodeBytes [0x8A, 0xB4] = .ok (.addReg 10 11, []) ∧ decodeBytes [0x6A, 0x2F] = .ok (.ldImm 10 0x2F, []) ∧
  decodeBytes [0xA2, 0xF0] = .ok (.ldI 0x02F0, []) ∧ decodeBytes [0xF2, 0x65] = .ok (.loadRegs 2, []) ∧
  decodeBytes [0xD1, 0x2F] = .ok (.drw 1 2 15, []) ∧ decodeBytes [0xE2, 0xA1] = .ok (.sknp 2, []) ∧
  decodeBytes [0xF3, 0x0A] = .ok (.ldVxK 3, []) ∧ decodeBytes [0x53, 0x41] = .error .skipEqualGroup

/-! ## The STEP -/

/-- R44: the fetch reads the high byte at `PC` and the low byte at `PC + 1`, each address modulo 4096, and advances PC
by 2 modulo 65536, changing nothing else. The byte order is the spec's decision D2 (log 1). -/
def Obligations.FetchReadsBigEndianWord : Prop :=
  ∀ s : State,
    (fetchWord s).toNat
      = (Memory.read s.mem (s.pc.toNat % 4096)).toNat * 256 + (Memory.read s.mem ((s.pc.toNat + 1) % 4096)).toNat ∧
    (advance s).pc.toNat = (s.pc.toNat + 2) % 65536 ∧ { advance s with pc := s.pc } = s

/-- R66: when the bytes at PC decode to `i` in a running block and the next transaction, scheduled or free (log 6), is a
STEP, the step is `exec i` after the fetch advance, with that STEP's random byte. -/
def Obligations.StepRunsTheDecodedInstruction : Prop :=
  ∀ (s : State) (i : Instr) (r : Byte), s.status = .running →
    decodeBytes [Memory.read s.mem s.pc.toNat, Memory.read s.mem (s.pc.toNat + 1)] = .ok (i, []) →
    nextTransaction s = .step r → step s = exec i (advance { takeTransaction s with rand := r })

/-- R187: a step performs the next transaction whole: the first scheduled one, or, with nothing scheduled, a free value,
which may be any transaction (how the schedule is held is the model's choice, log 6). -/
def Obligations.StepPerformsTheNextTransaction : Prop :=
  ∀ s : State,
    (∀ tr rest, s.schedule = tr :: rest →
      nextTransaction s = tr ∧ takeTransaction s = { s with schedule := rest }) ∧
    (s.schedule = [] →
      nextTransaction s = Config.transaction s.draws ∧ takeTransaction s = { s with draws := s.draws + 1 }) ∧
    (∀ r, nextTransaction s = .step r → step s = performStep { takeTransaction s with rand := r }) ∧
    (∀ font program, nextTransaction s = .reset font program →
      step s = .next (performReset font program (takeTransaction s))) ∧
    (nextTransaction s = .tick → step s = .next (performTick (takeTransaction s))) ∧
    (∀ k, nextTransaction s = .setKeys k → step s = .next (performSetKeys k (takeTransaction s)))

/-- A word that selects no row is a silent no-op (R67). Which words these are is the numeric table of decision D3 (log 1,
PRESUMED) and the masks of D6 (log 19, DEDUCED); the wrap of PC is D4 (log 20). -/
def Obligations.UnknownWordIsASilentNop : Prop :=
  ∀ (s : State) (r : Byte), s.status = .running →
    (∀ row ∈ opcodeRows, fetchWord s &&& row.1 ≠ row.2) →
    ∃ t, perform (.step r) s = .next t ∧ t.pc.toNat = (s.pc.toNat + 2) % 65536 ∧ t.result = some .nopUnknown ∧
      { t with pc := s.pc, result := s.result, rand := s.rand } = s

/-- Every step of the model answers a next state: an instruction by 93's closing words (every word executed in a running
state has exactly one outcome), a halted block by R173. That the fatal `CALL` and `RET` (R172, log 8, DEDUCED) and a
refused RESET (R201, log 7, DESIGN CHOICE) answer a next state and not a fault is the model's choice: the spec also
allows a fault outcome for them. -/
def Obligations.EveryStepCompletes : Prop := ∀ s : State, ∃ t, step s = .next t

/-- R172 (decision D10, log 8; the wrap of PC D4, log 20): the fatal entry of `RET` on an empty and `CALL` on a full stack, with the address and
word that were fetched; PC keeps `npc` and nothing else changes. -/
def Obligations.FatalEntryHaltsAndLatches : Prop :=
  ∀ (s : State) (r : Byte) (i : Instr) (cause : FaultCause), s.status = .running →
    decodeWord (fetchWord s) = .ok i →
    ((i = .ret ∧ s.sp.val = 0 ∧ cause = .stackUnderflow) ∨
      ((∃ nnn, i = .call nnn) ∧ s.sp.val = 16 ∧ cause = .stackOverflow)) →
    ∃ t, perform (.step r) s = .next t ∧ t.status = .halted ∧ t.faultCause = cause ∧ t.faultPc = s.pc ∧
      t.faultWord = fetchWord s ∧ t.pc.toNat = (s.pc.toNat + 2) % 65536 ∧ t.result = some (.fatal cause) ∧
      { t with status := s.status, faultCause := s.faultCause, faultPc := s.faultPc, faultWord := s.faultWord,
               pc := s.pc, result := s.result, rand := s.rand } = s

/-- R170, R171: only `RET` on an empty stack and `CALL` on a full one halt the block; no other instruction, and no other
state, raises anything. That those two answer a halted next state is decision D10, log 8 (DEDUCED). -/
def Obligations.OnlyCallAndReturnRaise : Prop :=
  ∀ (i : Instr) (s t : State), s.status = .running → exec i s = .next t →
    (t.status = .halted ↔ (i = .ret ∧ s.sp.val = 0) ∨ ((∃ nnn, i = .call nnn) ∧ s.sp.val = 16)) ∧
    (t.status = .running →
      t.faultCause = s.faultCause ∧ t.faultPc = s.faultPc ∧ t.faultWord = s.faultWord)

/-- R173 (decision D11, log 10): a STEP of a halted block changes nothing and returns IGNORED. -/
def Obligations.HaltedBlockIgnoresStep : Prop :=
  ∀ (s : State) (r : Byte), s.halted →
    ∃ t, perform (.step r) s = .next t ∧ t.result = some .ignored ∧
      { t with result := s.result, rand := s.rand } = s

/-- R174 (decision D11, log 10): only a RESET leaves the halted state, and the latches keep their values. -/
def Obligations.OnlyResetLeavesTheHaltedState : Prop :=
  ∀ s t : State, s.halted → (∀ font program, nextTransaction s ≠ .reset font program) → step s = .next t →
    t.halted ∧ t.faultCause = s.faultCause ∧ t.faultPc = s.faultPc ∧ t.faultWord = s.faultWord

/-- R188: a TICK commutes with every instruction but the three that touch a timer, and a SETKEYS with every instruction
but the three that read a key. -/
def Obligations.TickAndSetKeysCommuteWithOtherInstructions : Prop :=
  ∀ (i : Instr) (k : Keys) (s t : State), exec i s = .next t →
    ((∀ x, i ≠ .ldVxDt x ∧ i ≠ .ldDtVx x ∧ i ≠ .ldStVx x) → exec i (performTick s) = .next (performTick t)) ∧
    ((∀ x, i ≠ .skp x ∧ i ≠ .sknp x ∧ i ≠ .ldVxK x) →
      exec i (performSetKeys k s) = .next (performSetKeys k t))

/-! ## Reset, the timer tick and the key latch -/

/-- R200, R22: an accepted RESET, from any state. The zeros are the spec's decision D13 (log 2). -/
def Obligations.ResetConstructsTheState : Prop :=
  ∀ (font : Vector Byte 80) (program : List Byte) (s : State), program.length ≤ 3584 →
    ∃ t, perform (.reset font program) s = .next t ∧
      t.pc = 0x0200 ∧ (∀ r, t.reg r = 0) ∧ t.i = 0 ∧ t.sp.val = 0 ∧ (∀ k (h : k < 16), t.stack[k] = 0) ∧
      t.dt = 0 ∧ t.st = 0 ∧ (∀ col row, pixelAt t.disp col row = false) ∧ t.keys = 0 ∧
      t.status = .running ∧ t.faultCause.code = 0 ∧ t.faultPc = 0 ∧ t.faultWord = 0 ∧
      (∀ a (h : a < 80), Memory.read t.mem a = font[a]) ∧
      (∀ k (h : k < program.length), Memory.read t.mem (0x200 + k) = program[k]) ∧
      (∀ a, 80 ≤ a → a < 4096 → (a < 0x200 ∨ 0x200 + program.length ≤ a) → Memory.read t.mem a = 0)

/-- R201 (decision D14): a program over 3584 bytes is refused: halted with cause 3, and a STEP is ignored. What else the
state holds is free (log 7), and nothing is said of it. -/
def Obligations.OversizedProgramIsRefused : Prop :=
  ∀ (font : Vector Byte 80) (program : List Byte) (s : State) (r : Byte), 3584 < program.length →
    ∃ t, perform (.reset font program) s = .next t ∧ t.status = .halted ∧ t.faultCause.code = 3 ∧ t.faultPc = 0 ∧
      t.faultWord = 0 ∧
      ∃ u, perform (.step r) t = .next u ∧ u.result = some .ignored ∧
        { u with result := t.result, rand := t.rand } = t

/-- R180: TICK decrements each timer that is greater than 0, whatever the status; nothing else changes. -/
def Obligations.TickCountsBothTimersDown : Prop :=
  ∀ s : State, ∃ t, perform .tick s = .next t ∧ t.dt.toNat = s.dt.toNat - 1 ∧ t.st.toNat = s.st.toNat - 1 ∧
    { t with dt := s.dt, st := s.st } = s

/-- R183: SETKEYS replaces the whole latch, whatever the status; nothing else changes. -/
def Obligations.SetKeysReplacesTheLatch : Prop :=
  ∀ (k : Keys) (s : State), ∃ t, perform (.setKeys k) s = .next t ∧
    (∀ j < 16, t.keys.getLsbD j = k.getLsbD j) ∧ { t with keys := s.keys } = s

/-! ## Control transfer -/

/-- `RET` (R80), popping, or raising StackUnderflow on an empty stack. That the latter answers a halted next state with PC
kept is the spec's decision D10 and the model's reading of it (log 8, DEDUCED); the slot order is its decision D9
(log 18). -/
def Obligations.ReturnPopsTheStack : Prop :=
  ∀ s : State,
    (∀ d (h : d < 16), s.sp.val = d + 1 →
      ∃ t, exec .ret s = .next t ∧ t.sp.val = d ∧ t.pc = s.stack[d] ∧
        (∀ a, Memory.read t.mem a = Memory.read s.mem a) ∧
        { t with sp := s.sp, pc := s.pc, result := s.result } = s ∧ t.result = some .executed) ∧
    (s.sp.val = 0 →
      ∃ t, exec .ret s = .next t ∧ t.status = .halted ∧ t.faultCause = .stackUnderflow ∧
        { t with status := s.status, faultCause := s.faultCause, faultPc := s.faultPc, faultWord := s.faultWord,
                 result := s.result } = s)

/-- `CALL nnn` (R82), pushing `npc`, or raising StackOverflow on a full stack. That the latter answers a halted next state
with PC kept is the spec's decision D10 and the model's reading of it (log 8, DEDUCED); the slot order is its decision
D9 (log 18). -/
def Obligations.CallPushesTheReturnAddress : Prop :=
  ∀ (nnn : Word) (s : State),
    (∀ h : s.sp.val < 16,
      ∃ t, exec (.call nnn) s = .next t ∧ t.sp.val = s.sp.val + 1 ∧ t.pc = nnn ∧ t.stack[s.sp.val] = s.pc ∧
        (∀ k (hk : k < 16), k ≠ s.sp.val → t.stack[k] = s.stack[k]) ∧
        (∀ a, Memory.read t.mem a = Memory.read s.mem a) ∧
        { t with sp := s.sp, pc := s.pc, stack := s.stack, result := s.result } = s ∧ t.result = some .executed) ∧
    (s.sp.val = 16 →
      ∃ t, exec (.call nnn) s = .next t ∧ t.status = .halted ∧ t.faultCause = .stackOverflow ∧
        { t with status := s.status, faultCause := s.faultCause, faultPc := s.faultPc, faultWord := s.faultWord,
                 result := s.result } = s)

/-- R80, R82: a `CALL` and, from any state with the stack it left, a `RET` restore the PC that was current after the
call's own fetch advance, and the depth. -/
def Obligations.ReturnAfterCallRestoresPc : Prop :=
  ∀ (nnn : Word) (s : State), s.sp.val < 16 →
    ∃ t, exec (.call nnn) s = .next t ∧
      ∀ u : State, u.stack = t.stack → u.sp = t.sp →
        ∃ u', exec .ret u = .next u' ∧ u'.pc = s.pc ∧ u'.sp = s.sp

/-- R81: `JP nnn` sets PC to `nnn`. -/
def Obligations.JumpSetsPc : Prop :=
  ∀ (nnn : Word) (s : State), WritesPc (.jp nnn) s nnn.toNat

/-- R87 (decision D24, log 21): `JP V0, nnn` sets PC to the unreduced sum. -/
def Obligations.JumpWithOffsetAddsV0 : Prop :=
  ∀ (nnn : Word) (s : State), (Instr.jpV0 nnn).WellFormed →
    WritesPc (.jpV0 nnn) s (nnn.toNat + (s.reg 0).toNat)

/-- The immediate skips (R83, R84). The wrap of PC modulo 65536 is decision D4 (R89, log 20, DEDUCED). -/
def Obligations.ImmediateSkipsCompare : Prop :=
  ∀ (x : Reg) (kk : Byte) (s : State),
    WritesPc (.seImm x kk) s (afterSkip (s.reg x = kk) s.pc) ∧
    WritesPc (.sneImm x kk) s (afterSkip (s.reg x ≠ kk) s.pc)

/-- The register skips (R85, R86). The wrap of PC modulo 65536 is decision D4 (R89, log 20, DEDUCED). -/
def Obligations.RegisterSkipsCompare : Prop :=
  ∀ (x y : Reg) (s : State),
    WritesPc (.seReg x y) s (afterSkip (s.reg x = s.reg y) s.pc) ∧
    WritesPc (.sneReg x y) s (afterSkip (s.reg x ≠ s.reg y) s.pc)

/-- The key skips test the key that the low nibble of `V[x]` selects (R150, R151, R156). The wrap of PC modulo 65536 is
decision D4 (R89, log 20, DEDUCED). -/
def Obligations.KeySkipsTestTheSelectedKey : Prop :=
  ∀ (x : Reg) (s : State),
    WritesPc (.skp x) s (afterSkip (s.keys.getLsbD ((s.reg x).toNat % 16) = true) s.pc) ∧
    WritesPc (.sknp x) s (afterSkip (s.keys.getLsbD ((s.reg x).toNat % 16) = false) s.pc)

/-- R88: an instruction that is not in the rule's list leaves `PC = npc`. -/
def Obligations.OtherInstructionsFlowOn : Prop :=
  ∀ (i : Instr) (s t : State), mayWritePc i = false → exec i s = .next t → t.pc = s.pc

/-- R14, R15: the stack is written only by `CALL`, its pointer only by `CALL` and `RET`. -/
def Obligations.OnlyCallAndReturnTouchTheStack : Prop :=
  ∀ (i : Instr) (s t : State), exec i s = .next t → (∀ nnn, i ≠ .call nnn) →
    t.stack = s.stack ∧ (i ≠ .ret → t.sp = s.sp)

/-! ## Register loads and the ALU -/

/-- R100, R102, R152: the plain register loads. -/
def Obligations.LoadsCopyIntoTheirRegister : Prop :=
  ∀ (x y : Reg) (kk : Byte) (s : State),
    WritesRegister (.ldImm x kk) s x kk.toNat ∧
    WritesRegister (.ldReg x y) s x (s.reg y).toNat ∧
    WritesRegister (.ldVxDt x) s x s.dt.toNat

/-- R101: `ADD Vx, kk` wraps modulo 256 and writes no flag. -/
def Obligations.AddImmediateWrapsWithoutFlag : Prop :=
  ∀ (x : Reg) (kk : Byte) (s : State),
    WritesRegister (.addImm x kk) s x (((s.reg x).toNat + kk.toNat) % 256)

/-- R103, R104, R105: the bitwise operations write no flag. -/
def Obligations.LogicOperationsWriteNoFlag : Prop :=
  ∀ (x y : Reg) (s : State),
    WritesRegister (.orReg x y) s x ((s.reg x).toNat ||| (s.reg y).toNat) ∧
    WritesRegister (.andReg x y) s x ((s.reg x).toNat &&& (s.reg y).toNat) ∧
    WritesRegister (.xorReg x y) s x ((s.reg x).toNat ^^^ (s.reg y).toNat)

/-- R106: the low 8 bits of the sum, and VF the carry, written last. -/
def Obligations.AddRegistersSetsCarry : Prop :=
  ∀ (x y : Reg) (s : State),
    WritesRegisterAndFlag (.addReg x y) s x (((s.reg x).toNat + (s.reg y).toNat) % 256)
      (if (s.reg x).toNat + (s.reg y).toNat > 255 then 1 else 0)

/-- R107, R109: the differences modulo 256, and VF NOT borrow, written last. -/
def Obligations.SubtractionsSetNotBorrow : Prop :=
  ∀ (x y : Reg) (s : State),
    WritesRegisterAndFlag (.sub x y) s x (((s.reg x).toNat + 256 - (s.reg y).toNat) % 256)
      (if (s.reg x).toNat ≥ (s.reg y).toNat then 1 else 0) ∧
    WritesRegisterAndFlag (.subn x y) s x (((s.reg y).toNat + 256 - (s.reg x).toNat) % 256)
      (if (s.reg y).toNat ≥ (s.reg x).toNat then 1 else 0)

/-- R108, R110: the shifts by one in place, and VF the bit shifted out, written last. -/
def Obligations.ShiftsMoveOneBitIntoFlag : Prop :=
  ∀ (x y : Reg) (s : State),
    WritesRegisterAndFlag (.shr x y) s x ((s.reg x).toNat / 2) ((s.reg x).toNat % 2) ∧
    WritesRegisterAndFlag (.shl x y) s x ((s.reg x).toNat * 2 % 256) ((s.reg x).toNat / 128)

/-- R111: `RND` writes the byte presented with its STEP, masked, and no flag; in a STEP that byte is the
transaction's; every other instruction ignores it. -/
def Obligations.RandomByteIsMasked : Prop :=
  (∀ (x : Reg) (kk : Byte) (s : State), WritesRegister (.rnd x kk) s x (s.rand.toNat &&& kk.toNat)) ∧
  (∀ (x : Reg) (kk r : Byte) (s : State), s.status = .running → decodeWord (fetchWord s) = .ok (.rnd x kk) →
    ∃ t, perform (.step r) s = .next t ∧ (t.reg x).toNat = r.toNat &&& kk.toNat) ∧
  (∀ (i : Instr) (r : Byte) (s t : State), (∀ x kk, i ≠ .rnd x kk) → exec i s = .next t →
    exec i { s with rand := r } = .next { t with rand := r })

/-- R11, R24: an instruction changes no general register but its destinations and, for the six of R11, VF. -/
def Obligations.RegistersChangeOnlyAsDestinations : Prop :=
  ∀ (i : Instr) (s t : State) (r : Reg), exec i s = .next t → mayWriteReg i r = false → t.reg r = s.reg r

/-! ## Index register and memory -/

/-- R120: `LD I, nnn`. -/
def Obligations.LoadIndexSetsI : Prop :=
  ∀ (nnn : Word) (s : State), WritesIndex (.ldI nnn) s nnn.toNat

/-- R121 and R122 (decisions D16, D17, log 21): the 16-bit sum, and five times the whole register. -/
def Obligations.IndexArithmetic : Prop :=
  ∀ (x : Reg) (s : State),
    WritesIndex (.addI x) s ((s.i.toNat + (s.reg x).toNat) % 65536) ∧
    WritesIndex (.ldF x) s ((s.reg x).toNat * 5)

/-- Hundreds, tens and ones at `I`, `I + 1`, `I + 2`, each address modulo 4096 (R123). That `I` stays is decision D15
(R126, log 21, DEDUCED). -/
def Obligations.BcdStoresThreeDigits : Prop :=
  ∀ (x : Reg) (s : State),
    StoresAtIndex (.ldB x) s 3 fun k =>
      if k = 0 then (s.reg x).toNat / 100 else if k = 1 then (s.reg x).toNat / 10 % 10 else (s.reg x).toNat % 10

/-- `V[0]` to `V[x]`, inclusive, at `I` upwards (R124). That `I` stays is decision D15 (R126, log 21, DEDUCED). -/
def Obligations.BlockStoreWritesRegisters : Prop :=
  ∀ (x : Reg) (s : State),
    StoresAtIndex (.storeRegs x) s (x.val + 1) fun k => if h : k < 16 then (s.reg ⟨k, h⟩).toNat else 0

/-- `V[0]` to `V[x]`, inclusive, from `I` upwards; the registers above stay (R125). And the round trip: what
`LD [I], Vx` stored, `LD Vx, [I]` loads back, whatever the registers held in between. That `I` stays, on which the
round trip rests, is decision D15 (R126, log 21, DEDUCED). -/
def Obligations.BlockLoadReadsRegisters : Prop :=
  (∀ (x : Reg) (s : State),
    ∃ t, exec (.loadRegs x) s = .next t ∧
      (∀ r : Reg, r.val ≤ x.val → t.reg r = Memory.read s.mem (s.operandAddr r.val)) ∧
      (∀ r : Reg, x.val < r.val → t.reg r = s.reg r) ∧
      (∀ a, Memory.read t.mem a = Memory.read s.mem a) ∧
      { t with v := s.v, result := s.result } = s ∧ t.result = some .executed) ∧
  (∀ (x : Reg) (s : State) (clobbered : Vector Byte 16),
    ∃ t u, exec (.storeRegs x) s = .next t ∧ exec (.loadRegs x) { t with v := clobbered } = .next u ∧
      ∀ r : Reg, r.val ≤ x.val → u.reg r = s.reg r)

/-- R12, R126 (decision D15, log 21): `I` is changed only by `LD I, nnn`, `ADD I, Vx` and `LD F, Vx`; no memory access
changes it. -/
def Obligations.IndexChangesOnlyByItsThreeWriters : Prop :=
  ∀ (i : Instr) (s t : State), exec i s = .next t → (∀ nnn, i ≠ .ldI nnn) → (∀ x, i ≠ .addI x ∧ i ≠ .ldF x) →
    t.i = s.i

/-- R53, R42: memory is written only by `LD B` and `LD [I], Vx`, and by no instruction outside the 16 bytes at `I`. -/
def Obligations.MemoryIsWrittenOnlyByItsTwoStores : Prop :=
  ∀ (i : Instr) (s t : State), exec i s = .next t →
    ((∀ x, i ≠ .ldB x ∧ i ≠ .storeRegs x) → t.mem = s.mem) ∧
    (∀ a, (∀ k < 16, a % 4096 ≠ (s.i.toNat + k) % 4096) → Memory.read t.mem a = Memory.read s.mem a)

/-- R41: the address presented to memory is reduced modulo 4096: an instruction executed with another `I` of the same
residue does the same to registers, memory and display. -/
def Obligations.DataAddressesWrapModulo4096 : Prop :=
  ∀ (i : Instr) (s t : State) (w : Word), w.toNat % 4096 = s.i.toNat % 4096 → exec i s = .next t →
    ∃ u, exec i { s with i := w } = .next u ∧ u.v = t.v ∧ u.mem = t.mem ∧ u.disp = t.disp ∧ u.pc = t.pc

/-! ## Display -/

/-- R140: `CLS` clears every pixel and nothing else; VF is not written. -/
def Obligations.ClearDisplayClearsEveryPixel : Prop :=
  ∀ s : State, ∃ t, exec .cls s = .next t ∧ (∀ col row, pixelAt t.disp col row = false) ∧
    (∀ a, Memory.read t.mem a = Memory.read s.mem a) ∧
    { t with disp := s.disp, result := s.result } = s ∧ t.result = some .executed

/-- R141 to R145 (a): `DRW` XORs the sprite's mask onto the display, every pixel wrapped on its own; VF is 1 exactly
when a set sprite bit met a lit pixel; nothing else changes. The bit order is the spec's decision D7 (log 1), the
meaning of `n = 0` its decision D18, that `I` stays its decision D15 (log 21). -/
def Obligations.DrawXorsTheSpriteAndReportsCollision : Prop :=
  ∀ (x y : Reg) (n : Nat) (s : State), (Instr.drw x y n).WellFormed →
    ∃ t, exec (.drw x y n) s = .next t ∧
      (∀ col < 64, ∀ row < 32,
        pixelAt t.disp col row = true ↔ (pixelAt s.disp col row = true ↔ ¬ SpriteSets s x y n col row)) ∧
      (t.reg vf = 0 ∨ t.reg vf = 1) ∧
      (t.reg vf = 1 ↔ ∃ col < 64, ∃ row < 32, SpriteSets s x y n col row ∧ pixelAt s.disp col row = true) ∧
      (∀ r, r ≠ vf → t.reg r = s.reg r) ∧
      (∀ a, Memory.read t.mem a = Memory.read s.mem a) ∧
      { t with v := s.v, disp := s.disp, result := s.result } = s ∧ t.result = some .executed

/-- R145 (b): drawing the same sprite twice at the same place restores the display, and the second VF is 1 exactly when
the first pass lit a pixel. -/
def Obligations.DrawingTwiceRestoresTheDisplay : Prop :=
  ∀ (x y : Reg) (n : Nat) (s t : State), (Instr.drw x y n).WellFormed → x ≠ vf → y ≠ vf →
    exec (.drw x y n) s = .next t →
    ∃ u, exec (.drw x y n) t = .next u ∧ (∀ col row, pixelAt u.disp col row = pixelAt s.disp col row) ∧
      (u.reg vf = 1 ↔ ∃ col < 64, ∃ row < 32, SpriteSets s x y n col row ∧ pixelAt s.disp col row = false)

/-- R18: the display is changed only by `CLS` and `DRW`. -/
def Obligations.DisplayChangesOnlyByClearAndDraw : Prop :=
  ∀ (i : Instr) (s t : State), exec i s = .next t → i ≠ .cls → (∀ x y n, i ≠ .drw x y n) → t.disp = s.disp

/-! ## Keys and timers -/

/-- R153: with a key held `LD Vx, K` loads the lowest held key; with none it undoes the fetch advance, changes nothing
else and reports WAITING_KEY. -/
def Obligations.KeyWaitLoadsTheLowestHeldKey : Prop :=
  ∀ (x : Reg) (s : State),
    (∀ k < 16, s.keys.getLsbD k = true → (∀ j < k, s.keys.getLsbD j = false) → WritesRegister (.ldVxK x) s x k) ∧
    ((∀ k < 16, s.keys.getLsbD k = false) →
      ∃ t, exec (.ldVxK x) s = .next t ∧ t.pc = s.pc0 ∧ t.result = some .waitingKey ∧
        { t with pc := s.pc, result := s.result } = s)

/-- R189: while the block waits for a key every STEP changes nothing and returns WAITING_KEY; a SETKEYS with a key held
lifts the wait, and the next STEP completes the instruction (the wrap of PC is decision D4, log 20). -/
def Obligations.KeyWaitHoldsUntilAKeyIsHeld : Prop :=
  ∀ (s : State) (r : Byte), s.waitingForKey →
    (∃ t, perform (.step r) s = .next t ∧ t.result = some .waitingKey ∧
      { t with result := s.result, rand := s.rand } = s) ∧
    ∀ k : Keys, k ≠ 0 →
      ∃ t u, perform (.setKeys k) s = .next t ∧ ¬ t.waitingForKey ∧ perform (.step r) t = .next u ∧
        u.result = some .executed ∧ u.pc.toNat = (s.pc.toNat + 2) % 65536

/-- R154, R155: the timer loads. -/
def Obligations.TimerLoadsCopyTheRegister : Prop :=
  ∀ (x : Reg) (s : State),
    (∃ t, exec (.ldDtVx x) s = .next t ∧ t.dt = s.reg x ∧ (∀ a, Memory.read t.mem a = Memory.read s.mem a) ∧
      { t with dt := s.dt, result := s.result } = s ∧ t.result = some .executed) ∧
    (∃ t, exec (.ldStVx x) s = .next t ∧ t.st = s.reg x ∧ (∀ a, Memory.read t.mem a = Memory.read s.mem a) ∧
      { t with st := s.st, result := s.result } = s ∧ t.result = some .executed)

/-- R181 (b): `n` TICKs after `LD DT, Vx` wrote `v`, `LD Vy, DT` reads the larger of 0 and `v - n`. -/
def Obligations.DelayTimerReadsElapsedTicks : Prop :=
  ∀ (x y : Reg) (n : Nat) (s : State),
    ∃ t, exec (.ldDtVx x) s = .next t ∧
      WritesRegister (.ldVxDt y) (performTick^[n] t) y ((s.reg x).toNat - n)

/-- R16, R19: an instruction changes a timer only by that timer's load, and the key latch never. -/
def Obligations.TimersAndKeysKeepTheirWriters : Prop :=
  ∀ (i : Instr) (s t : State), exec i s = .next t →
    ((∀ x, i ≠ .ldDtVx x) → t.dt = s.dt) ∧ ((∀ x, i ≠ .ldStVx x) → t.st = s.st) ∧ t.keys = s.keys

/-- R208, R191 (c) (decision D22): in the self-jump state every STEP leaves the whole state as it was. -/
def Obligations.SelfJumpIsFinal : Prop :=
  ∀ (s : State) (r : Byte), s.selfJump →
    ∃ t, perform (.step r) s = .next t ∧ t.selfJump ∧ { t with result := s.result, rand := s.rand } = s

/-! ## The invariant -/

/-- The invariant holds at reset. Its canonical form of memory is the model's own representation (log 4, DESIGN CHOICE);
its status and fault latches are the spec's decision D10 (log 8). -/
def Obligations.ResetMeetsTheInvariant : Prop := State.reset.Inv

/-- Every transaction keeps the invariant. Its canonical form of memory is the model's own representation (log 4, DESIGN
CHOICE); the agreement of status and fault latches, PC two past `FAULT_PC` included, is the spec's decision D10 (log 8,
R20, R172, R201). -/
def Obligations.StepKeepsTheInvariant : Prop :=
  ∀ s t : State, s.Inv → step s = .next t → t.Inv
end

