-- ==== Sys2Proof/Laws/State.lean ====
section
/-!
SUPPORT. What each named update of the state does to each field, so that no proof unfolds a record update.
-/

namespace Sys2Proof.Machine

variable (s : State)

/-! ## State.setReg -/

@[simp] theorem State.setReg_v (r : Reg) (b : Byte) : (s.setReg r b).v = s.v.set r.val b := rfl
@[simp] theorem State.setReg_i (r : Reg) (b : Byte) : (s.setReg r b).i = s.i := rfl
@[simp] theorem State.setReg_pc (r : Reg) (b : Byte) : (s.setReg r b).pc = s.pc := rfl
@[simp] theorem State.setReg_stack (r : Reg) (b : Byte) : (s.setReg r b).stack = s.stack := rfl
@[simp] theorem State.setReg_sp (r : Reg) (b : Byte) : (s.setReg r b).sp = s.sp := rfl
@[simp] theorem State.setReg_dt (r : Reg) (b : Byte) : (s.setReg r b).dt = s.dt := rfl
@[simp] theorem State.setReg_st (r : Reg) (b : Byte) : (s.setReg r b).st = s.st := rfl
@[simp] theorem State.setReg_mem (r : Reg) (b : Byte) : (s.setReg r b).mem = s.mem := rfl
@[simp] theorem State.setReg_disp (r : Reg) (b : Byte) : (s.setReg r b).disp = s.disp := rfl
@[simp] theorem State.setReg_keys (r : Reg) (b : Byte) : (s.setReg r b).keys = s.keys := rfl
@[simp] theorem State.setReg_status (r : Reg) (b : Byte) : (s.setReg r b).status = s.status := rfl
@[simp] theorem State.setReg_faultCause (r : Reg) (b : Byte) : (s.setReg r b).faultCause = s.faultCause := rfl
@[simp] theorem State.setReg_faultPc (r : Reg) (b : Byte) : (s.setReg r b).faultPc = s.faultPc := rfl
@[simp] theorem State.setReg_faultWord (r : Reg) (b : Byte) : (s.setReg r b).faultWord = s.faultWord := rfl
@[simp] theorem State.setReg_result (r : Reg) (b : Byte) : (s.setReg r b).result = s.result := rfl
@[simp] theorem State.setReg_rand (r : Reg) (b : Byte) : (s.setReg r b).rand = s.rand := rfl
@[simp] theorem State.setReg_draws (r : Reg) (b : Byte) : (s.setReg r b).draws = s.draws := rfl
@[simp] theorem State.setReg_schedule (r : Reg) (b : Byte) : (s.setReg r b).schedule = s.schedule := rfl

/-! ## State.setI -/

@[simp] theorem State.setI_v (w : Word) : (s.setI w).v = s.v := rfl
@[simp] theorem State.setI_i (w : Word) : (s.setI w).i = w := rfl
@[simp] theorem State.setI_pc (w : Word) : (s.setI w).pc = s.pc := rfl
@[simp] theorem State.setI_stack (w : Word) : (s.setI w).stack = s.stack := rfl
@[simp] theorem State.setI_sp (w : Word) : (s.setI w).sp = s.sp := rfl
@[simp] theorem State.setI_dt (w : Word) : (s.setI w).dt = s.dt := rfl
@[simp] theorem State.setI_st (w : Word) : (s.setI w).st = s.st := rfl
@[simp] theorem State.setI_mem (w : Word) : (s.setI w).mem = s.mem := rfl
@[simp] theorem State.setI_disp (w : Word) : (s.setI w).disp = s.disp := rfl
@[simp] theorem State.setI_keys (w : Word) : (s.setI w).keys = s.keys := rfl
@[simp] theorem State.setI_status (w : Word) : (s.setI w).status = s.status := rfl
@[simp] theorem State.setI_faultCause (w : Word) : (s.setI w).faultCause = s.faultCause := rfl
@[simp] theorem State.setI_faultPc (w : Word) : (s.setI w).faultPc = s.faultPc := rfl
@[simp] theorem State.setI_faultWord (w : Word) : (s.setI w).faultWord = s.faultWord := rfl
@[simp] theorem State.setI_result (w : Word) : (s.setI w).result = s.result := rfl
@[simp] theorem State.setI_rand (w : Word) : (s.setI w).rand = s.rand := rfl
@[simp] theorem State.setI_draws (w : Word) : (s.setI w).draws = s.draws := rfl
@[simp] theorem State.setI_schedule (w : Word) : (s.setI w).schedule = s.schedule := rfl

/-! ## State.setPc -/

@[simp] theorem State.setPc_v (w : Word) : (s.setPc w).v = s.v := rfl
@[simp] theorem State.setPc_i (w : Word) : (s.setPc w).i = s.i := rfl
@[simp] theorem State.setPc_pc (w : Word) : (s.setPc w).pc = w := rfl
@[simp] theorem State.setPc_stack (w : Word) : (s.setPc w).stack = s.stack := rfl
@[simp] theorem State.setPc_sp (w : Word) : (s.setPc w).sp = s.sp := rfl
@[simp] theorem State.setPc_dt (w : Word) : (s.setPc w).dt = s.dt := rfl
@[simp] theorem State.setPc_st (w : Word) : (s.setPc w).st = s.st := rfl
@[simp] theorem State.setPc_mem (w : Word) : (s.setPc w).mem = s.mem := rfl
@[simp] theorem State.setPc_disp (w : Word) : (s.setPc w).disp = s.disp := rfl
@[simp] theorem State.setPc_keys (w : Word) : (s.setPc w).keys = s.keys := rfl
@[simp] theorem State.setPc_status (w : Word) : (s.setPc w).status = s.status := rfl
@[simp] theorem State.setPc_faultCause (w : Word) : (s.setPc w).faultCause = s.faultCause := rfl
@[simp] theorem State.setPc_faultPc (w : Word) : (s.setPc w).faultPc = s.faultPc := rfl
@[simp] theorem State.setPc_faultWord (w : Word) : (s.setPc w).faultWord = s.faultWord := rfl
@[simp] theorem State.setPc_result (w : Word) : (s.setPc w).result = s.result := rfl
@[simp] theorem State.setPc_rand (w : Word) : (s.setPc w).rand = s.rand := rfl
@[simp] theorem State.setPc_draws (w : Word) : (s.setPc w).draws = s.draws := rfl
@[simp] theorem State.setPc_schedule (w : Word) : (s.setPc w).schedule = s.schedule := rfl

/-! ## State.setResult -/

@[simp] theorem State.setResult_v (c : StepCode) : (s.setResult c).v = s.v := rfl
@[simp] theorem State.setResult_i (c : StepCode) : (s.setResult c).i = s.i := rfl
@[simp] theorem State.setResult_pc (c : StepCode) : (s.setResult c).pc = s.pc := rfl
@[simp] theorem State.setResult_stack (c : StepCode) : (s.setResult c).stack = s.stack := rfl
@[simp] theorem State.setResult_sp (c : StepCode) : (s.setResult c).sp = s.sp := rfl
@[simp] theorem State.setResult_dt (c : StepCode) : (s.setResult c).dt = s.dt := rfl
@[simp] theorem State.setResult_st (c : StepCode) : (s.setResult c).st = s.st := rfl
@[simp] theorem State.setResult_mem (c : StepCode) : (s.setResult c).mem = s.mem := rfl
@[simp] theorem State.setResult_disp (c : StepCode) : (s.setResult c).disp = s.disp := rfl
@[simp] theorem State.setResult_keys (c : StepCode) : (s.setResult c).keys = s.keys := rfl
@[simp] theorem State.setResult_status (c : StepCode) : (s.setResult c).status = s.status := rfl
@[simp] theorem State.setResult_faultCause (c : StepCode) : (s.setResult c).faultCause = s.faultCause := rfl
@[simp] theorem State.setResult_faultPc (c : StepCode) : (s.setResult c).faultPc = s.faultPc := rfl
@[simp] theorem State.setResult_faultWord (c : StepCode) : (s.setResult c).faultWord = s.faultWord := rfl
@[simp] theorem State.setResult_result (c : StepCode) : (s.setResult c).result = some c := rfl
@[simp] theorem State.setResult_rand (c : StepCode) : (s.setResult c).rand = s.rand := rfl
@[simp] theorem State.setResult_draws (c : StepCode) : (s.setResult c).draws = s.draws := rfl
@[simp] theorem State.setResult_schedule (c : StepCode) : (s.setResult c).schedule = s.schedule := rfl

/-! ## State.setResultFlag -/

@[simp] theorem State.setResultFlag_v (x : Reg) (a f : Byte) : (s.setResultFlag x a f).v = (s.v.set x.val a).set vf.val f := rfl
@[simp] theorem State.setResultFlag_i (x : Reg) (a f : Byte) : (s.setResultFlag x a f).i = s.i := rfl
@[simp] theorem State.setResultFlag_pc (x : Reg) (a f : Byte) : (s.setResultFlag x a f).pc = s.pc := rfl
@[simp] theorem State.setResultFlag_stack (x : Reg) (a f : Byte) : (s.setResultFlag x a f).stack = s.stack := rfl
@[simp] theorem State.setResultFlag_sp (x : Reg) (a f : Byte) : (s.setResultFlag x a f).sp = s.sp := rfl
@[simp] theorem State.setResultFlag_dt (x : Reg) (a f : Byte) : (s.setResultFlag x a f).dt = s.dt := rfl
@[simp] theorem State.setResultFlag_st (x : Reg) (a f : Byte) : (s.setResultFlag x a f).st = s.st := rfl
@[simp] theorem State.setResultFlag_mem (x : Reg) (a f : Byte) : (s.setResultFlag x a f).mem = s.mem := rfl
@[simp] theorem State.setResultFlag_disp (x : Reg) (a f : Byte) : (s.setResultFlag x a f).disp = s.disp := rfl
@[simp] theorem State.setResultFlag_keys (x : Reg) (a f : Byte) : (s.setResultFlag x a f).keys = s.keys := rfl
@[simp] theorem State.setResultFlag_status (x : Reg) (a f : Byte) : (s.setResultFlag x a f).status = s.status := rfl
@[simp] theorem State.setResultFlag_faultCause (x : Reg) (a f : Byte) : (s.setResultFlag x a f).faultCause = s.faultCause := rfl
@[simp] theorem State.setResultFlag_faultPc (x : Reg) (a f : Byte) : (s.setResultFlag x a f).faultPc = s.faultPc := rfl
@[simp] theorem State.setResultFlag_faultWord (x : Reg) (a f : Byte) : (s.setResultFlag x a f).faultWord = s.faultWord := rfl
@[simp] theorem State.setResultFlag_result (x : Reg) (a f : Byte) : (s.setResultFlag x a f).result = s.result := rfl
@[simp] theorem State.setResultFlag_rand (x : Reg) (a f : Byte) : (s.setResultFlag x a f).rand = s.rand := rfl
@[simp] theorem State.setResultFlag_draws (x : Reg) (a f : Byte) : (s.setResultFlag x a f).draws = s.draws := rfl
@[simp] theorem State.setResultFlag_schedule (x : Reg) (a f : Byte) : (s.setResultFlag x a f).schedule = s.schedule := rfl

/-! ## State.storeOperand -/

@[simp] theorem State.storeOperand_v (l : List Byte) : (s.storeOperand l).v = s.v := rfl
@[simp] theorem State.storeOperand_i (l : List Byte) : (s.storeOperand l).i = s.i := rfl
@[simp] theorem State.storeOperand_pc (l : List Byte) : (s.storeOperand l).pc = s.pc := rfl
@[simp] theorem State.storeOperand_stack (l : List Byte) : (s.storeOperand l).stack = s.stack := rfl
@[simp] theorem State.storeOperand_sp (l : List Byte) : (s.storeOperand l).sp = s.sp := rfl
@[simp] theorem State.storeOperand_dt (l : List Byte) : (s.storeOperand l).dt = s.dt := rfl
@[simp] theorem State.storeOperand_st (l : List Byte) : (s.storeOperand l).st = s.st := rfl
@[simp] theorem State.storeOperand_mem (l : List Byte) : (s.storeOperand l).mem = Memory.writeBytes s.mem (s.operandAddr 0) l := rfl
@[simp] theorem State.storeOperand_disp (l : List Byte) : (s.storeOperand l).disp = s.disp := rfl
@[simp] theorem State.storeOperand_keys (l : List Byte) : (s.storeOperand l).keys = s.keys := rfl
@[simp] theorem State.storeOperand_status (l : List Byte) : (s.storeOperand l).status = s.status := rfl
@[simp] theorem State.storeOperand_faultCause (l : List Byte) : (s.storeOperand l).faultCause = s.faultCause := rfl
@[simp] theorem State.storeOperand_faultPc (l : List Byte) : (s.storeOperand l).faultPc = s.faultPc := rfl
@[simp] theorem State.storeOperand_faultWord (l : List Byte) : (s.storeOperand l).faultWord = s.faultWord := rfl
@[simp] theorem State.storeOperand_result (l : List Byte) : (s.storeOperand l).result = s.result := rfl
@[simp] theorem State.storeOperand_rand (l : List Byte) : (s.storeOperand l).rand = s.rand := rfl
@[simp] theorem State.storeOperand_draws (l : List Byte) : (s.storeOperand l).draws = s.draws := rfl
@[simp] theorem State.storeOperand_schedule (l : List Byte) : (s.storeOperand l).schedule = s.schedule := rfl

/-! ## State.loadUpTo -/

@[simp] theorem State.loadUpTo_i (x : Reg) : (s.loadUpTo x).i = s.i := rfl
@[simp] theorem State.loadUpTo_pc (x : Reg) : (s.loadUpTo x).pc = s.pc := rfl
@[simp] theorem State.loadUpTo_stack (x : Reg) : (s.loadUpTo x).stack = s.stack := rfl
@[simp] theorem State.loadUpTo_sp (x : Reg) : (s.loadUpTo x).sp = s.sp := rfl
@[simp] theorem State.loadUpTo_dt (x : Reg) : (s.loadUpTo x).dt = s.dt := rfl
@[simp] theorem State.loadUpTo_st (x : Reg) : (s.loadUpTo x).st = s.st := rfl
@[simp] theorem State.loadUpTo_mem (x : Reg) : (s.loadUpTo x).mem = s.mem := rfl
@[simp] theorem State.loadUpTo_disp (x : Reg) : (s.loadUpTo x).disp = s.disp := rfl
@[simp] theorem State.loadUpTo_keys (x : Reg) : (s.loadUpTo x).keys = s.keys := rfl
@[simp] theorem State.loadUpTo_status (x : Reg) : (s.loadUpTo x).status = s.status := rfl
@[simp] theorem State.loadUpTo_faultCause (x : Reg) : (s.loadUpTo x).faultCause = s.faultCause := rfl
@[simp] theorem State.loadUpTo_faultPc (x : Reg) : (s.loadUpTo x).faultPc = s.faultPc := rfl
@[simp] theorem State.loadUpTo_faultWord (x : Reg) : (s.loadUpTo x).faultWord = s.faultWord := rfl
@[simp] theorem State.loadUpTo_result (x : Reg) : (s.loadUpTo x).result = s.result := rfl
@[simp] theorem State.loadUpTo_rand (x : Reg) : (s.loadUpTo x).rand = s.rand := rfl
@[simp] theorem State.loadUpTo_draws (x : Reg) : (s.loadUpTo x).draws = s.draws := rfl
@[simp] theorem State.loadUpTo_schedule (x : Reg) : (s.loadUpTo x).schedule = s.schedule := rfl

/-! ## advance -/

@[simp] theorem advance_v : (advance s).v = s.v := rfl
@[simp] theorem advance_i : (advance s).i = s.i := rfl
@[simp] theorem advance_pc : (advance s).pc = s.pc + 2 := rfl
@[simp] theorem advance_stack : (advance s).stack = s.stack := rfl
@[simp] theorem advance_sp : (advance s).sp = s.sp := rfl
@[simp] theorem advance_dt : (advance s).dt = s.dt := rfl
@[simp] theorem advance_st : (advance s).st = s.st := rfl
@[simp] theorem advance_mem : (advance s).mem = s.mem := rfl
@[simp] theorem advance_disp : (advance s).disp = s.disp := rfl
@[simp] theorem advance_keys : (advance s).keys = s.keys := rfl
@[simp] theorem advance_status : (advance s).status = s.status := rfl
@[simp] theorem advance_faultCause : (advance s).faultCause = s.faultCause := rfl
@[simp] theorem advance_faultPc : (advance s).faultPc = s.faultPc := rfl
@[simp] theorem advance_faultWord : (advance s).faultWord = s.faultWord := rfl
@[simp] theorem advance_result : (advance s).result = s.result := rfl
@[simp] theorem advance_rand : (advance s).rand = s.rand := rfl
@[simp] theorem advance_draws : (advance s).draws = s.draws := rfl
@[simp] theorem advance_schedule : (advance s).schedule = s.schedule := rfl

/-! ## takeTransaction -/

@[simp] theorem takeTransaction_v : (takeTransaction s).v = s.v := rfl
@[simp] theorem takeTransaction_i : (takeTransaction s).i = s.i := rfl
@[simp] theorem takeTransaction_pc : (takeTransaction s).pc = s.pc := rfl
@[simp] theorem takeTransaction_stack : (takeTransaction s).stack = s.stack := rfl
@[simp] theorem takeTransaction_sp : (takeTransaction s).sp = s.sp := rfl
@[simp] theorem takeTransaction_dt : (takeTransaction s).dt = s.dt := rfl
@[simp] theorem takeTransaction_st : (takeTransaction s).st = s.st := rfl
@[simp] theorem takeTransaction_mem : (takeTransaction s).mem = s.mem := rfl
@[simp] theorem takeTransaction_disp : (takeTransaction s).disp = s.disp := rfl
@[simp] theorem takeTransaction_keys : (takeTransaction s).keys = s.keys := rfl
@[simp] theorem takeTransaction_status : (takeTransaction s).status = s.status := rfl
@[simp] theorem takeTransaction_faultCause : (takeTransaction s).faultCause = s.faultCause := rfl
@[simp] theorem takeTransaction_faultPc : (takeTransaction s).faultPc = s.faultPc := rfl
@[simp] theorem takeTransaction_faultWord : (takeTransaction s).faultWord = s.faultWord := rfl
@[simp] theorem takeTransaction_result : (takeTransaction s).result = s.result := rfl
@[simp] theorem takeTransaction_rand : (takeTransaction s).rand = s.rand := rfl
@[simp] theorem takeTransaction_draws :
    (takeTransaction s).draws = if s.schedule.isEmpty then s.draws + 1 else s.draws := rfl
@[simp] theorem takeTransaction_schedule : (takeTransaction s).schedule = s.schedule.tail := rfl

/-! ## performTick -/

@[simp] theorem performTick_v : (performTick s).v = s.v := rfl
@[simp] theorem performTick_i : (performTick s).i = s.i := rfl
@[simp] theorem performTick_pc : (performTick s).pc = s.pc := rfl
@[simp] theorem performTick_stack : (performTick s).stack = s.stack := rfl
@[simp] theorem performTick_sp : (performTick s).sp = s.sp := rfl
@[simp] theorem performTick_dt : (performTick s).dt = countDown s.dt := rfl
@[simp] theorem performTick_st : (performTick s).st = countDown s.st := rfl
@[simp] theorem performTick_mem : (performTick s).mem = s.mem := rfl
@[simp] theorem performTick_disp : (performTick s).disp = s.disp := rfl
@[simp] theorem performTick_keys : (performTick s).keys = s.keys := rfl
@[simp] theorem performTick_status : (performTick s).status = s.status := rfl
@[simp] theorem performTick_faultCause : (performTick s).faultCause = s.faultCause := rfl
@[simp] theorem performTick_faultPc : (performTick s).faultPc = s.faultPc := rfl
@[simp] theorem performTick_faultWord : (performTick s).faultWord = s.faultWord := rfl
@[simp] theorem performTick_result : (performTick s).result = s.result := rfl
@[simp] theorem performTick_rand : (performTick s).rand = s.rand := rfl
@[simp] theorem performTick_draws : (performTick s).draws = s.draws := rfl
@[simp] theorem performTick_schedule : (performTick s).schedule = s.schedule := rfl

/-! ## performSetKeys -/

@[simp] theorem performSetKeys_v (k : Keys) : (performSetKeys k s).v = s.v := rfl
@[simp] theorem performSetKeys_i (k : Keys) : (performSetKeys k s).i = s.i := rfl
@[simp] theorem performSetKeys_pc (k : Keys) : (performSetKeys k s).pc = s.pc := rfl
@[simp] theorem performSetKeys_stack (k : Keys) : (performSetKeys k s).stack = s.stack := rfl
@[simp] theorem performSetKeys_sp (k : Keys) : (performSetKeys k s).sp = s.sp := rfl
@[simp] theorem performSetKeys_dt (k : Keys) : (performSetKeys k s).dt = s.dt := rfl
@[simp] theorem performSetKeys_st (k : Keys) : (performSetKeys k s).st = s.st := rfl
@[simp] theorem performSetKeys_mem (k : Keys) : (performSetKeys k s).mem = s.mem := rfl
@[simp] theorem performSetKeys_disp (k : Keys) : (performSetKeys k s).disp = s.disp := rfl
@[simp] theorem performSetKeys_keys (k : Keys) : (performSetKeys k s).keys = k := rfl
@[simp] theorem performSetKeys_status (k : Keys) : (performSetKeys k s).status = s.status := rfl
@[simp] theorem performSetKeys_faultCause (k : Keys) : (performSetKeys k s).faultCause = s.faultCause := rfl
@[simp] theorem performSetKeys_faultPc (k : Keys) : (performSetKeys k s).faultPc = s.faultPc := rfl
@[simp] theorem performSetKeys_faultWord (k : Keys) : (performSetKeys k s).faultWord = s.faultWord := rfl
@[simp] theorem performSetKeys_result (k : Keys) : (performSetKeys k s).result = s.result := rfl
@[simp] theorem performSetKeys_rand (k : Keys) : (performSetKeys k s).rand = s.rand := rfl
@[simp] theorem performSetKeys_draws (k : Keys) : (performSetKeys k s).draws = s.draws := rfl
@[simp] theorem performSetKeys_schedule (k : Keys) : (performSetKeys k s).schedule = s.schedule := rfl

/-! ## Reading a register after an update -/

@[simp] theorem State.reg_setReg_self (r : Reg) (b : Byte) : (s.setReg r b).reg r = b := by
  simp [State.reg]

theorem State.reg_setReg_of_ne {r q : Reg} (b : Byte) (h : q ≠ r) : (s.setReg r b).reg q = s.reg q := by
  have : r.val ≠ q.val := fun e => h (Fin.ext e.symm)
  simp [State.reg, Vector.getElem_set_ne, this]

theorem State.reg_setReg (r q : Reg) (b : Byte) : (s.setReg r b).reg q = if q = r then b else s.reg q := by
  split
  · next h => subst h; simp
  · next h => exact s.reg_setReg_of_ne b h

@[simp] theorem State.reg_setI (w : Word) (q : Reg) : (s.setI w).reg q = s.reg q := rfl
@[simp] theorem State.reg_setPc (w : Word) (q : Reg) : (s.setPc w).reg q = s.reg q := rfl
@[simp] theorem State.reg_setResult (c : StepCode) (q : Reg) : (s.setResult c).reg q = s.reg q := rfl
@[simp] theorem State.reg_storeOperand (l : List Byte) (q : Reg) : (s.storeOperand l).reg q = s.reg q := rfl
@[simp] theorem reg_advance (q : Reg) : (advance s).reg q = s.reg q := rfl

/-- VF holds the flag after a result and flag write, whatever the destination (R113). -/
@[simp] theorem State.reg_setResultFlag_vf (x : Reg) (a f : Byte) : (s.setResultFlag x a f).reg vf = f := by
  simp [State.setResultFlag]

/-- The destination holds the result when it is not VF (R113). -/
theorem State.reg_setResultFlag_dest {x : Reg} (a f : Byte) (h : x ≠ vf) : (s.setResultFlag x a f).reg x = a := by
  simp [State.setResultFlag, State.reg_setReg_of_ne, h]

/-- A result and flag write changes no third register (R113). -/
theorem State.reg_setResultFlag_other {x q : Reg} (a f : Byte) (hx : q ≠ x) (hf : q ≠ vf) :
    (s.setResultFlag x a f).reg q = s.reg q := by
  simp [State.setResultFlag, State.reg_setReg_of_ne, hx, hf]

/-- The block load (R125): the registers of the range take their bytes, the others stay. -/
theorem State.reg_loadUpTo (x q : Reg) :
    (s.loadUpTo x).reg q = if q.val ≤ x.val then s.operandByte q.val else s.reg q := by
  simp [State.loadUpTo, State.reg]

/-- Two states with the same registers have the same register file. -/
theorem State.v_eq_of_reg {s t : State} (h : ∀ r, t.reg r = s.reg r) : t.v = s.v := by
  apply Vector.ext
  intro k hk
  exact h ⟨k, hk⟩

end Sys2Proof.Machine
end

