-- ==== Sys2Proof/Laws/Exec.lean ====
section
/-!
SUPPORT. What executing an instruction can do, said once: the shared outcomes (completion, skip, fatal entry), the
call and return cases, and the inversion of `exec`.
-/

namespace Sys2Proof.Machine

/-- A completed instruction answers the state with its result code (R4). -/
theorem done_eq_next {s t : State} : done s = .next t ↔ t = s.setResult .executed := by
  simp [done, eq_comm]

/-- A skip changes PC, and only when its condition holds (R89). -/
theorem skipIf_eq_next {c : Bool} {s t : State} :
    skipIf c s = .next t ↔ t = (s.setPc (if c then s.pc + 2 else s.pc)).setResult .executed := by
  cases c <;> simp [skipIf, done, eq_comm, State.setPc]

/-- The fatal entry writes the status, the latches and the result code (R172). -/
theorem fatal_eq_next {cause : FaultCause} {w : Word} {s t : State} :
    fatal cause w s = .next t ↔
      t = { s with status := .halted, faultCause := cause, faultPc := s.pc0, faultWord := w,
                   result := some (.fatal cause) } := by
  simp [fatal, eq_comm]

/-- The address of the executing instruction is where the fetch was (R66, R172). -/
@[simp] theorem pc0_advance (s : State) : (advance s).pc0 = s.pc := by
  simp [State.pc0]

/-- `RET` on an empty stack (R80). -/
theorem execRet_empty {s : State} (h : s.sp.val = 0) : execRet s = fatal .stackUnderflow (encode .ret) s := by
  have hs : s.sp = ⟨0, by omega⟩ := Fin.ext h
  unfold execRet
  rw [hs]

/-- `RET` with a return address on the stack (R80). -/
theorem execRet_pop {s : State} {d : Nat} (h : s.sp.val = d + 1) :
    execRet s = done { s with sp := ⟨d, by omega⟩, pc := s.stack[d]'(by omega) } := by
  have hs : s.sp = ⟨d + 1, by omega⟩ := Fin.ext h
  unfold execRet
  split
  · next hz => rw [hs] at hz; simp at hz
  · next e he hd =>
    rw [hs] at hd
    have : d = e := by simpa using congrArg Fin.val hd
    subst this
    rfl

/-- `CALL` with room on the stack (R82). -/
theorem execCall_push {s : State} (nnn : Word) (h : s.sp.val < 16) :
    execCall nnn s
      = done { s with stack := s.stack.set s.sp.val s.pc h, sp := ⟨s.sp.val + 1, by omega⟩, pc := nnn } := by
  simp [execCall, h]

/-- `CALL` on a full stack (R82). -/
theorem execCall_full {s : State} (nnn : Word) (h : s.sp.val = 16) :
    execCall nnn s = fatal .stackOverflow (encode (.call nnn)) s := by
  simp [execCall, h]

/-- The inversion of `RET` (R80): a pop, or the fatal entry on an empty stack. -/
theorem execRet_cases {s t : State} (h : execRet s = .next t) :
    (∃ d, ∃ hd : d < 16, s.sp.val = d + 1 ∧
      t = ({ s with sp := ⟨d, by omega⟩, pc := s.stack[d] } : State).setResult .executed) ∨
    (s.sp.val = 0 ∧ fatal .stackUnderflow (encode .ret) s = .next t) := by
  rcases Nat.eq_zero_or_pos s.sp.val with h0 | h0
  · exact .inr ⟨h0, (execRet_empty h0).symm.trans h⟩
  · obtain ⟨d, hd⟩ : ∃ d, s.sp.val = d + 1 := ⟨s.sp.val - 1, by omega⟩
    exact .inl ⟨d, by omega, hd, done_eq_next.mp ((execRet_pop hd).symm.trans h)⟩

/-- The inversion of `CALL` (R82): a push, or the fatal entry on a full stack. -/
theorem execCall_cases {nnn : Word} {s t : State} (h : execCall nnn s = .next t) :
    (∃ hd : s.sp.val < 16,
      t = ({ s with stack := s.stack.set s.sp.val s.pc hd, sp := ⟨s.sp.val + 1, by omega⟩, pc := nnn } :
        State).setResult .executed) ∨
    (s.sp.val = 16 ∧ fatal .stackOverflow (encode (.call nnn)) s = .next t) := by
  rcases Nat.lt_or_ge s.sp.val 16 with h0 | h0
  · exact .inl ⟨h0, done_eq_next.mp ((execCall_push nnn h0).symm.trans h)⟩
  · exact .inr ⟨by omega, (execCall_full nnn (by omega)).symm.trans h⟩

/-- The inversion of `LD Vx, K` (R153): a wait that undoes the fetch advance, or the lowest held key. -/
theorem execLdVxK_cases {x : Reg} {s t : State} (h : execLdVxK x s = .next t) :
    (lowestKey s.keys = none ∧ t = (s.setPc s.pc0).setResult .waitingKey) ∨
    (∃ k, lowestKey s.keys = some k ∧ t = (s.setReg x (BitVec.ofNat 8 k)).setResult .executed) := by
  unfold execLdVxK at h
  split at h
  · next hk => exact .inl ⟨hk, (Host.Outcome.next.inj h).symm⟩
  · next k hk => exact .inr ⟨k, hk, done_eq_next.mp h⟩

/-- The lowest held key, when one is held (R153). -/
theorem lowestKey_some {keys : Keys} {k : Nat} (h : lowestKey keys = some k) :
    k < 16 ∧ keys.getLsbD k = true ∧ ∀ j < k, keys.getLsbD j = false := by
  unfold lowestKey at h
  rw [List.find?_range_eq_some] at h
  simp at h
  exact ⟨h.2.1, h.1, h.2.2⟩

/-- No key is held exactly when the latch is all 0 (R153). -/
theorem lowestKey_none {keys : Keys} : lowestKey keys = none ↔ keys = 0 := by
  unfold lowestKey
  rw [List.find?_eq_none]
  constructor
  · intro h
    apply BitVec.eq_of_getLsbD_eq
    intro k hk
    simpa using h k (List.mem_range.mpr hk)
  · rintro rfl k _
    simp

/-- The inversion of `exec`: an instruction completes (or waits) changing at most V, I, PC, memory by a byte store,
pixels and timers; or it calls or returns; or it takes the fatal entry, which only `RET` on an empty and `CALL` on a
full stack do (R24, R170). -/
theorem exec_cases {i : Instr} {s t : State} (h : exec i s = .next t) :
    (∃ v ii pc mem disp dt st c,
        t = { s with v := v, i := ii, pc := pc, mem := mem, disp := disp, dt := dt, st := st, result := some c }
        ∧ (mem = s.mem ∨ ∃ a l, mem = Memory.writeBytes s.mem a l)) ∨
    (∃ stack sp pc, t = { s with stack := stack, sp := sp, pc := pc, result := some .executed }) ∨
    (i = .ret ∧ s.sp = 0 ∧ fatal .stackUnderflow (encode .ret) s = .next t) ∨
    (∃ nnn, i = .call nnn ∧ s.sp = 16 ∧ fatal .stackOverflow (encode (.call nnn)) s = .next t) := by
  cases i
  case ret =>
    rcases Nat.eq_zero_or_pos s.sp.val with h0 | h0
    · exact .inr (.inr (.inl ⟨rfl, Fin.ext h0, (execRet_empty h0).symm.trans h⟩))
    · obtain ⟨d, hd⟩ : ∃ d, s.sp.val = d + 1 := ⟨s.sp.val - 1, by omega⟩
      have h := done_eq_next.mp ((execRet_pop hd).symm.trans h)
      subst h
      exact .inr (.inl ⟨_, _, _, rfl⟩)
  case call nnn =>
    rcases Nat.lt_or_ge s.sp.val 16 with h0 | h0
    · have h := done_eq_next.mp ((execCall_push nnn h0).symm.trans h)
      subst h
      exact .inr (.inl ⟨_, _, _, rfl⟩)
    · have h16 : s.sp.val = 16 := by omega
      exact .inr (.inr (.inr ⟨nnn, rfl, Fin.ext h16, (execCall_full nnn h16).symm.trans h⟩))
  case ldVxK x =>
    left
    simp only [exec, execLdVxK] at h
    split at h
    · have h := Host.Outcome.next.inj h
      subst h
      exact ⟨_, _, _, _, _, _, _, _, rfl, .inl rfl⟩
    · rw [done_eq_next] at h
      subst h
      exact ⟨_, _, _, _, _, _, _, _, rfl, .inl rfl⟩
  case ldB | storeRegs =>
    left
    have h := done_eq_next.mp h
    subst h
    exact ⟨_, _, _, _, _, _, _, _, rfl, .inr ⟨_, _, rfl⟩⟩
  case seImm | sneImm | seReg | sneReg | skp | sknp =>
    left
    have h := skipIf_eq_next.mp h
    subst h
    exact ⟨_, _, _, _, _, _, _, _, rfl, .inl rfl⟩
  all_goals
    left
    have h := done_eq_next.mp h
    subst h
    exact ⟨_, _, _, _, _, _, _, _, rfl, .inl rfl⟩

end Sys2Proof.Machine
end

