-- ==== Sys2Proof/Laws/Completion.lean ====
section
/-!
SUPPORT. What `exec` answers, instruction by instruction, for the instructions that complete in every state, and the
skips: each is the completion of one state the shared operations give. `RET`, `CALL` and `LD Vx, K` have their cases in
Exec.lean.
-/

namespace Sys2Proof.Machine

variable (s : State)

theorem exec_cls :
    exec .cls s = .next (({ s with disp := blankDisplay } : State).setResult .executed) := rfl

theorem exec_jp (nnn : Word) :
    exec (.jp nnn) s = .next ((s.setPc nnn).setResult .executed) := rfl

theorem exec_ldImm (x : Reg) (kk : Byte) :
    exec (.ldImm x kk) s = .next ((s.setReg x kk).setResult .executed) := rfl

theorem exec_addImm (x : Reg) (kk : Byte) :
    exec (.addImm x kk) s = .next ((s.setReg x (s.reg x + kk)).setResult .executed) := rfl

theorem exec_ldReg (x y : Reg) :
    exec (.ldReg x y) s = .next ((s.setReg x (s.reg y)).setResult .executed) := rfl

theorem exec_orReg (x y : Reg) :
    exec (.orReg x y) s = .next ((s.setReg x (s.reg x ||| s.reg y)).setResult .executed) := rfl

theorem exec_andReg (x y : Reg) :
    exec (.andReg x y) s = .next ((s.setReg x (s.reg x &&& s.reg y)).setResult .executed) := rfl

theorem exec_xorReg (x y : Reg) :
    exec (.xorReg x y) s = .next ((s.setReg x (s.reg x ^^^ s.reg y)).setResult .executed) := rfl

theorem exec_addReg (x y : Reg) :
    exec (.addReg x y) s = .next ((s.setResultFlag x (s.reg x + s.reg y) (carryFlag (s.reg x) (s.reg y))).setResult .executed) := rfl

theorem exec_sub (x y : Reg) :
    exec (.sub x y) s = .next ((s.setResultFlag x (s.reg x - s.reg y) (notBorrowFlag (s.reg x) (s.reg y))).setResult .executed) := rfl

theorem exec_shr (x y : Reg) :
    exec (.shr x y) s = .next ((s.setResultFlag x (s.reg x >>> 1) (lowBitFlag (s.reg x))).setResult .executed) := rfl

theorem exec_subn (x y : Reg) :
    exec (.subn x y) s = .next ((s.setResultFlag x (s.reg y - s.reg x) (notBorrowFlag (s.reg y) (s.reg x))).setResult .executed) := rfl

theorem exec_shl (x y : Reg) :
    exec (.shl x y) s = .next ((s.setResultFlag x (s.reg x <<< 1) (highBitFlag (s.reg x))).setResult .executed) := rfl

theorem exec_ldI (nnn : Word) :
    exec (.ldI nnn) s = .next ((s.setI nnn).setResult .executed) := rfl

theorem exec_jpV0 (nnn : Word) :
    exec (.jpV0 nnn) s = .next ((s.setPc (nnn + (s.reg 0).setWidth 16)).setResult .executed) := rfl

theorem exec_rnd (x : Reg) (kk : Byte) :
    exec (.rnd x kk) s = .next ((s.setReg x (s.rand &&& kk)).setResult .executed) := rfl

theorem exec_ldVxDt (x : Reg) :
    exec (.ldVxDt x) s = .next ((s.setReg x s.dt).setResult .executed) := rfl

theorem exec_ldDtVx (x : Reg) :
    exec (.ldDtVx x) s = .next (({ s with dt := s.reg x } : State).setResult .executed) := rfl

theorem exec_ldStVx (x : Reg) :
    exec (.ldStVx x) s = .next (({ s with st := s.reg x } : State).setResult .executed) := rfl

theorem exec_addI (x : Reg) :
    exec (.addI x) s = .next ((s.setI (s.i + (s.reg x).setWidth 16)).setResult .executed) := rfl

theorem exec_ldF (x : Reg) :
    exec (.ldF x) s = .next ((s.setI (BitVec.ofNat 16 (Config.fontBase + (s.reg x).toNat * Config.fontStride))).setResult .executed) := rfl

theorem exec_ldB (x : Reg) :
    exec (.ldB x) s = .next ((s.storeOperand (decimalDigits (s.reg x))).setResult .executed) := rfl

theorem exec_storeRegs (x : Reg) :
    exec (.storeRegs x) s = .next ((s.storeOperand (s.regsUpTo x)).setResult .executed) := rfl

theorem exec_loadRegs (x : Reg) :
    exec (.loadRegs x) s = .next ((s.loadUpTo x).setResult .executed) := rfl

theorem exec_seImm (x : Reg) (kk : Byte) :
    exec (.seImm x kk) s
      = .next ((s.setPc (if s.reg x == kk then s.pc + 2 else s.pc)).setResult .executed) :=
  skipIf_eq_next.mpr rfl

theorem exec_sneImm (x : Reg) (kk : Byte) :
    exec (.sneImm x kk) s
      = .next ((s.setPc (if s.reg x != kk then s.pc + 2 else s.pc)).setResult .executed) :=
  skipIf_eq_next.mpr rfl

theorem exec_seReg (x y : Reg) :
    exec (.seReg x y) s
      = .next ((s.setPc (if s.reg x == s.reg y then s.pc + 2 else s.pc)).setResult .executed) :=
  skipIf_eq_next.mpr rfl

theorem exec_sneReg (x y : Reg) :
    exec (.sneReg x y) s
      = .next ((s.setPc (if s.reg x != s.reg y then s.pc + 2 else s.pc)).setResult .executed) :=
  skipIf_eq_next.mpr rfl

theorem exec_skp (x : Reg) :
    exec (.skp x) s
      = .next ((s.setPc (if keyHeld s.keys (s.reg x) then s.pc + 2 else s.pc)).setResult .executed) :=
  skipIf_eq_next.mpr rfl

theorem exec_sknp (x : Reg) :
    exec (.sknp x) s
      = .next ((s.setPc (if !keyHeld s.keys (s.reg x) then s.pc + 2 else s.pc)).setResult .executed) :=
  skipIf_eq_next.mpr rfl

theorem exec_drw (x y : Reg) (n : Nat) :
    exec (.drw x y n) s = .next
      ((({ s with disp := (drawSprite (s.reg x).toNat (s.reg y).toNat s.operandByte n s.disp).1 } : State).setReg vf
        (flagByte (drawSprite (s.reg x).toNat (s.reg y).toNat s.operandByte n s.disp).2)).setResult .executed) := rfl

end Sys2Proof.Machine
end

