-- ==== Sys2Proof/Laws/Decode.lean ====
section
/-!
SUPPORT. The fields of the words each format builds (spec/30_encoding.md R61, R62), and the format a word has by its
fields. Decoding and encoding are compared through these, never by unfolding both.
-/

namespace Sys2Proof

theorem extract_all {n : Nat} (x : BitVec n) : x.extractLsb' 0 n = x := by simp

@[simp] theorem fieldOp_formatA (op : BitVec 4) (nnn : Word) : fieldOp (formatA op nnn) = op := by
  rw [fieldOp, formatA, BitVec.extractLsb'_append_eq_of_le (by decide)]
  exact extract_all op

@[simp] theorem fieldNNN_formatA (op : BitVec 4) (nnn : Word) (h : nnn.toNat < 0x1000) :
    fieldNNN (formatA op nnn) = nnn := by
  rw [fieldNNN, formatA, BitVec.extractLsb'_append_eq_of_add_le (by decide), extract_all]
  apply BitVec.eq_of_toNat_eq
  simp
  omega

@[simp] theorem fieldOp_formatI (op : BitVec 4) (x : Reg) (kk : Byte) : fieldOp (formatI op x kk) = op := by
  rw [fieldOp, formatI, BitVec.extractLsb'_append_eq_of_le (by decide),
    BitVec.extractLsb'_append_eq_of_le (by decide)]
  exact extract_all op

@[simp] theorem fieldX_formatI (op : BitVec 4) (x : Reg) (kk : Byte) : fieldX (formatI op x kk) = x := by
  rw [fieldX, formatI, BitVec.extractLsb'_append_eq_of_le (by decide),
    BitVec.extractLsb'_append_eq_of_add_le (by decide)]
  exact congrArg BitVec.toFin (extract_all (regField x))

@[simp] theorem fieldKK_formatI (op : BitVec 4) (x : Reg) (kk : Byte) : fieldKK (formatI op x kk) = kk := by
  rw [fieldKK, formatI, BitVec.extractLsb'_append_eq_of_add_le (by decide)]
  exact extract_all kk

@[simp] theorem fieldOp_formatR (op : BitVec 4) (x y : Reg) (low : BitVec 4) :
    fieldOp (formatR op x y low) = op := by
  rw [fieldOp, formatR, BitVec.extractLsb'_append_eq_of_le (by decide),
    BitVec.extractLsb'_append_eq_of_le (by decide)]
  exact extract_all op

@[simp] theorem fieldX_formatR (op : BitVec 4) (x y : Reg) (low : BitVec 4) :
    fieldX (formatR op x y low) = x := by
  rw [fieldX, formatR, BitVec.extractLsb'_append_eq_of_le (by decide),
    BitVec.extractLsb'_append_eq_of_add_le (by decide)]
  exact congrArg BitVec.toFin (extract_all (regField x))

@[simp] theorem fieldY_formatR (op : BitVec 4) (x y : Reg) (low : BitVec 4) :
    fieldY (formatR op x y low) = y := by
  rw [fieldY, formatR, BitVec.extractLsb'_append_eq_of_add_le (by decide),
    BitVec.extractLsb'_append_eq_of_le (by decide)]
  exact congrArg BitVec.toFin (extract_all (regField y))

@[simp] theorem fieldN_formatR (op : BitVec 4) (x y : Reg) (low : BitVec 4) :
    fieldN (formatR op x y low) = low := by
  rw [fieldN, formatR, BitVec.extractLsb'_append_eq_of_add_le (by decide),
    BitVec.extractLsb'_append_eq_of_add_le (by decide)]
  exact extract_all low

/-- Concatenation as arithmetic. -/
theorem toNat_append_add {m n : Nat} (x : BitVec m) (y : BitVec n) :
    (x ++ y).toNat = x.toNat * 2 ^ n + y.toNat := by
  rw [BitVec.toNat_append, ← Nat.shiftLeft_add_eq_or_of_lt y.isLt, Nat.shiftLeft_eq]

/-- A word is the format A word of its fields. -/
theorem formatA_fields (w : Word) : formatA (fieldOp w) (fieldNNN w) = w := by
  apply BitVec.eq_of_toNat_eq
  rw [formatA, toNat_append_add]
  simp [fieldOp, fieldNNN, BitVec.extractLsb'_toNat, Nat.shiftRight_eq_div_pow]
  have := w.isLt
  omega

/-- A word is the format I word of its fields. -/
theorem formatI_fields (w : Word) : formatI (fieldOp w) (fieldX w) (fieldKK w) = w := by
  apply BitVec.eq_of_toNat_eq
  rw [formatI, toNat_append_add, toNat_append_add]
  simp [fieldOp, fieldX, fieldKK, regField, BitVec.extractLsb'_toNat, Nat.shiftRight_eq_div_pow]
  have := w.isLt
  omega

/-- A word is the format R word of its fields. -/
theorem formatR_fields (w : Word) : formatR (fieldOp w) (fieldX w) (fieldY w) (fieldN w) = w := by
  apply BitVec.eq_of_toNat_eq
  rw [formatR, toNat_append_add, toNat_append_add, toNat_append_add]
  simp [fieldOp, fieldX, fieldY, fieldN, regField, BitVec.extractLsb'_toNat, Nat.shiftRight_eq_div_pow]
  have := w.isLt
  omega

/-- The address field is a 12-bit value (R63). -/
theorem fieldNNN_lt (w : Word) : (fieldNNN w).toNat < 0x1000 := by
  simp [fieldNNN]
  omega

/-- The two bytes of a word make the word (R44). -/
theorem wordOfBytes_bytesOfWord (w : Word) : wordOfBytes (highByte w) (lowByte w) = w := by
  apply BitVec.eq_of_toNat_eq
  rw [wordOfBytes, toNat_append_add]
  simp [highByte, lowByte, BitVec.extractLsb'_toNat, Nat.shiftRight_eq_div_pow]
  have := w.isLt
  omega

/-- The bytes of an instruction's word decode as the word does. -/
theorem decodeBytes_bytesOfWord (w : Word) (i : Instr) (h : decodeWord w = .ok i) :
    decodeBytes (bytesOfWord w) = .ok (i, []) := by
  simp [decodeBytes, bytesOfWord, wordOfBytes_bytesOfWord, h]

/-! ## The mask classes of R62 and R65 -/

theorem formatA_and (op : BitVec 4) (nnn : Word) : formatA op nnn &&& 0xF000 = op ++ 0#12 := by
  rw [formatA, show (0xF000 : Word) = 0xF#4 ++ 0#12 by decide, BitVec.and_append,
    show op &&& 0xF#4 = op by revert op; decide, BitVec.and_zero]

theorem formatI_and_op (op : BitVec 4) (x : Reg) (kk : Byte) : formatI op x kk &&& 0xF000 = (op ++ 0#4) ++ 0#8 := by
  rw [formatI, show (0xF000 : Word) = (0xF#4 ++ 0#4) ++ 0#8 by decide, BitVec.and_append, BitVec.and_append,
    show op &&& 0xF#4 = op by revert op; decide, BitVec.and_zero, BitVec.and_zero]

theorem formatI_and_byte (op : BitVec 4) (x : Reg) (kk : Byte) :
    formatI op x kk &&& 0xF0FF = (op ++ 0#4) ++ kk := by
  rw [formatI, show (0xF0FF : Word) = (0xF#4 ++ 0#4) ++ 0xFF#8 by decide, BitVec.and_append, BitVec.and_append,
    show op &&& 0xF#4 = op by revert op; decide, BitVec.and_zero, show kk &&& 0xFF#8 = kk by revert kk; decide]

theorem formatR_and_op (op : BitVec 4) (x y : Reg) (low : BitVec 4) :
    formatR op x y low &&& 0xF000 = (op ++ 0#4) ++ (0#4 ++ 0#4) := by
  rw [formatR, show (0xF000 : Word) = (0xF#4 ++ 0#4) ++ (0#4 ++ 0#4) by decide, BitVec.and_append, BitVec.and_append,
    BitVec.and_append, show op &&& 0xF#4 = op by revert op; decide]
  simp only [BitVec.and_zero]

theorem formatR_and_low (op : BitVec 4) (x y : Reg) (low : BitVec 4) :
    formatR op x y low &&& 0xF00F = (op ++ 0#4) ++ (0#4 ++ low) := by
  rw [formatR, show (0xF00F : Word) = (0xF#4 ++ 0#4) ++ (0#4 ++ 0xF#4) by decide, BitVec.and_append, BitVec.and_append,
    BitVec.and_append, show op &&& 0xF#4 = op by revert op; decide, show low &&& 0xF#4 = low by revert low; decide]
  simp only [BitVec.and_zero]

/-- A word under the mask 0xF000 shows its top nibble. -/
theorem and_op_iff (w : Word) (op : BitVec 4) : w &&& 0xF000 = op ++ 0#12 ↔ fieldOp w = op := by
  have h : w &&& 0xF000 = formatA (fieldOp w) 0 := by
    conv_lhs => rw [← formatA_fields w]
    exact formatA_and _ _
  rw [h]
  constructor
  · intro e
    exact (fieldOp_formatA _ 0).symm.trans ((congrArg fieldOp e).trans (fieldOp_formatA op 0))
  · rintro rfl
    rfl

/-- A word under the mask 0xF00F shows its top and its function nibble. -/
theorem and_low_iff (w : Word) (op low : BitVec 4) :
    w &&& 0xF00F = (op ++ 0#4) ++ (0#4 ++ low) ↔ fieldOp w = op ∧ fieldN w = low := by
  have h : w &&& 0xF00F = formatR (fieldOp w) 0 0 (fieldN w) := by
    conv_lhs => rw [← formatR_fields w]
    exact formatR_and_low _ _ _ _
  rw [h]
  constructor
  · intro e
    exact ⟨(fieldOp_formatR _ 0 0 _).symm.trans ((congrArg fieldOp e).trans (fieldOp_formatR op 0 0 low)),
      (fieldN_formatR _ 0 0 _).symm.trans ((congrArg fieldN e).trans (fieldN_formatR op 0 0 low))⟩
  · rintro ⟨rfl, rfl⟩
    rfl

/-- A word under the mask 0xF0FF shows its top nibble and its function byte. -/
theorem and_byte_iff (w : Word) (op : BitVec 4) (kk : Byte) :
    w &&& 0xF0FF = (op ++ 0#4) ++ kk ↔ fieldOp w = op ∧ fieldKK w = kk := by
  have h : w &&& 0xF0FF = formatI (fieldOp w) 0 (fieldKK w) := by
    conv_lhs => rw [← formatI_fields w]
    exact formatI_and_byte _ _ _
  rw [h]
  constructor
  · intro e
    exact ⟨(fieldOp_formatI _ 0 _).symm.trans ((congrArg fieldOp e).trans (fieldOp_formatI op 0 kk)),
      (fieldKK_formatI _ 0 _).symm.trans ((congrArg fieldKK e).trans (fieldKK_formatI op 0 kk))⟩
  · rintro ⟨rfl, rfl⟩
    rfl

/-- The fields as arithmetic on the word (R61). -/
theorem fieldOp_toNat (w : Word) : (fieldOp w).toNat = w.toNat / 4096 := by
  have := w.isLt
  simp [fieldOp, BitVec.extractLsb'_toNat, Nat.shiftRight_eq_div_pow]
  omega

theorem fieldN_toNat (w : Word) : (fieldN w).toNat = w.toNat % 16 := by
  simp [fieldN, BitVec.extractLsb'_toNat]

theorem fieldKK_toNat (w : Word) : (fieldKK w).toNat = w.toNat % 256 := by
  simp [fieldKK, BitVec.extractLsb'_toNat]

theorem fieldX_val (w : Word) : (fieldX w).val = w.toNat / 256 % 16 := by
  simp [fieldX, Nat.shiftRight_eq_div_pow]

end Sys2Proof
end

