-- ==== Sys2Proof/Laws/Display.lean ====
section
/-!
SUPPORT. The laws of the compositor (spec/43_display.md R141 to R145): what one pixel, one row and one sprite do to
every pixel of the display, and when a collision is reported.
-/

namespace Sys2Proof.Machine

theorem columnBit_get {c k : Nat} (hk : k < 64) : (columnBit c).getLsbD k = decide (k = c) := by
  simp only [columnBit, BitVec.getLsbD_shiftLeft, hk, decide_true, Bool.true_and, BitVec.getLsbD_one]
  by_cases h : k < c
  · simp [h]; omega
  · simp [h]; omega

@[simp] theorem pixelAt_blankDisplay (c r : Nat) : pixelAt blankDisplay c r = false := by
  simp [pixelAt, blankDisplay]

/-- One pixel write flips exactly its own pixel, when its bit is set (R144). -/
theorem pixelAt_xorPixel (d : Display) (col row c r : Nat) (bit : Bool) :
    pixelAt (xorPixel d col row bit) c r
      = (pixelAt d c r != (bit && decide (c % 64 = col % 64) && decide (r % 32 = row % 32))) := by
  unfold xorPixel
  cases bit with
  | false => simp
  | true =>
    simp only [if_true, Bool.true_and, pixelAt, Config.dispHeight, Config.dispWidth]
    rw [Vector.getElem_set]
    split
    · next h =>
      rw [BitVec.getLsbD_xor, columnBit_get (Nat.mod_lt _ (by decide))]
      simp [h]
    · next h => simp [Ne.symm h]

/-- The column offset of column `c` from an origin column. -/
def colOffset (vx c : Nat) : Nat := (c + 64 - vx % 64) % 64

/-- The row offset of row `r` from an origin row. -/
def rowOffset (vy r : Nat) : Nat := (r + 32 - vy % 32) % 32

theorem colOffset_eq {vx c dx : Nat} (hd : dx < 64) : dx = colOffset vx c ↔ c % 64 = (vx + dx) % 64 := by
  unfold colOffset
  omega

theorem rowOffset_eq {vy r dy : Nat} (hd : dy < 32) : dy = rowOffset vy r ↔ r % 32 = (vy + dy) % 32 := by
  unfold rowOffset
  omega

/-- Whether the first `k` pixels of sprite row `dy` set the bit of pixel `(c, r)`. -/
def rowCovers (vx vy : Nat) (b : Byte) (dy k c r : Nat) : Bool :=
  decide (r % 32 = (vy + dy) % 32) && decide (colOffset vx c < k) && spriteBit b (colOffset vx c)

theorem drawRow_prefix (vx vy : Nat) (b : Byte) (dy : Nat) (acc : Display × Bool) (k : Nat) (hk : k ≤ 8) :
    (∀ c r, pixelAt ((List.range k).foldl (drawPixel vx vy b dy) acc).1 c r
        = (pixelAt acc.1 c r != rowCovers vx vy b dy k c r)) ∧
    (((List.range k).foldl (drawPixel vx vy b dy) acc).2 = true
        ↔ acc.2 = true ∨ ∃ dx < k, spriteBit b dx = true ∧ pixelAt acc.1 (vx + dx) (vy + dy) = true) := by
  induction k with
  | zero => simp [rowCovers]
  | succ k ih =>
    obtain ⟨ihp, ihc⟩ := ih (by omega)
    rw [List.range_succ, List.foldl_append]
    set acc' := (List.range k).foldl (drawPixel vx vy b dy) acc
    simp only [List.foldl_cons, List.foldl_nil, drawPixel]
    constructor
    · intro c r
      rw [pixelAt_xorPixel, ihp]
      have h1 : decide (colOffset vx c < k + 1) = (decide (colOffset vx c < k) || decide (c % 64 = (vx + k) % 64)) := by
        rw [Bool.eq_iff_iff]
        simp only [Bool.or_eq_true, decide_eq_true_eq]
        rw [← colOffset_eq (by omega)]
        omega
      unfold rowCovers
      rw [h1]
      by_cases h2 : c % 64 = (vx + k) % 64
      · have h3 : k = colOffset vx c := (colOffset_eq (by omega)).mpr h2
        rw [← h3]
        simp [h2]
        cases spriteBit b k <;> simp
      · simp [h2]
    · have hno : rowCovers vx vy b dy k (vx + k) (vy + dy) = false := by
        have h3 : k = colOffset vx (vx + k) := (colOffset_eq (by omega)).mpr rfl
        simp [rowCovers, ← h3]
      rw [Bool.or_eq_true, ihc, ihp, hno]
      simp only [Bool.bne_false, Bool.and_eq_true]
      constructor
      · rintro ((h | ⟨dx, hd, h⟩) | h)
        · exact .inl h
        · exact .inr ⟨dx, by omega, h⟩
        · exact .inr ⟨k, by omega, h⟩
      · rintro (h | ⟨dx, hd, h⟩)
        · exact .inl (.inl h)
        · rcases Nat.lt_succ_iff_lt_or_eq.mp hd with hd | rfl
          · exact .inl (.inr ⟨dx, hd, h⟩)
          · exact .inr h

/-- Whether the first `n` rows of a sprite set the bit of pixel `(c, r)`: the mask `S` of R145. -/
def spriteCovers (vx vy : Nat) (byteAt : Nat → Byte) (n c r : Nat) : Bool :=
  decide (rowOffset vy r < n) && decide (colOffset vx c < 8)
    && spriteBit (byteAt (rowOffset vy r)) (colOffset vx c)

/-- The compositor XORs the sprite onto the display and reports exactly the collisions (R144, R145 (a)). -/
theorem drawSprite_spec (vx vy : Nat) (byteAt : Nat → Byte) (n : Nat) (hn : n ≤ 32) (d : Display) :
    (∀ c r, pixelAt (drawSprite vx vy byteAt n d).1 c r = (pixelAt d c r != spriteCovers vx vy byteAt n c r)) ∧
    ((drawSprite vx vy byteAt n d).2 = true
        ↔ ∃ dy < n, ∃ dx < 8, spriteBit (byteAt dy) dx = true ∧ pixelAt d (vx + dx) (vy + dy) = true) := by
  unfold drawSprite
  induction n with
  | zero => simp [spriteCovers]
  | succ n ih =>
    obtain ⟨ihp, ihc⟩ := ih (by omega)
    rw [List.range_succ, List.foldl_append]
    set acc := (List.range n).foldl (drawRow vx vy byteAt) (d, false)
    obtain ⟨rp, rc⟩ := drawRow_prefix vx vy (byteAt n) n acc 8 (le_refl 8)
    simp only [List.foldl_cons, List.foldl_nil, drawRow]
    constructor
    · intro c r
      rw [rp, ihp]
      have h1 : decide (rowOffset vy r < n + 1) = (decide (rowOffset vy r < n) || decide (r % 32 = (vy + n) % 32)) := by
        rw [Bool.eq_iff_iff]
        simp only [Bool.or_eq_true, decide_eq_true_eq]
        rw [← rowOffset_eq (by omega)]
        omega
      unfold spriteCovers rowCovers
      rw [h1]
      by_cases h2 : r % 32 = (vy + n) % 32
      · have h3 : n = rowOffset vy r := (rowOffset_eq (by omega)).mpr h2
        rw [← h3]
        simp [h2]
      · simp [h2]
    · rw [rc, ihc]
      have hno : ∀ dx, spriteCovers vx vy byteAt n (vx + dx) (vy + n) = false := by
        intro dx
        have h3 : n = rowOffset vy (vy + n) := (rowOffset_eq (by omega)).mpr rfl
        simp [spriteCovers, ← h3]
      simp only [ihp, hno, Bool.bne_false]
      constructor
      · rintro (⟨dy, hd, h⟩ | ⟨dx, hd, h⟩)
        · exact ⟨dy, by omega, h⟩
        · exact ⟨n, by omega, dx, hd, h⟩
      · rintro ⟨dy, hd, h⟩
        rcases Nat.lt_succ_iff_lt_or_eq.mp hd with hd | rfl
        · exact .inl ⟨dy, hd, h⟩
        · exact .inr h

/-- The mask in the words of R142: some sprite pixel with a set bit lands on `(c, r)`. -/
theorem spriteCovers_iff (vx vy : Nat) (byteAt : Nat → Byte) (n : Nat) (hn : n ≤ 32) (c r : Nat) :
    spriteCovers vx vy byteAt n c r = true
      ↔ ∃ dy < n, ∃ dx < 8, spriteBit (byteAt dy) dx = true ∧ (vx + dx) % 64 = c % 64 ∧ (vy + dy) % 32 = r % 32 := by
  simp only [spriteCovers, Bool.and_eq_true, decide_eq_true_eq]
  constructor
  · rintro ⟨⟨h1, h2⟩, h3⟩
    exact ⟨_, h1, _, h2, h3, ((colOffset_eq (by omega)).mp rfl).symm, ((rowOffset_eq (by omega)).mp rfl).symm⟩
  · rintro ⟨dy, h1, dx, h2, h3, h4, h5⟩
    have e1 : dx = colOffset vx c := (colOffset_eq (by omega)).mpr h4.symm
    have e2 : dy = rowOffset vy r := (rowOffset_eq (by omega)).mpr h5.symm
    subst e1 e2
    exact ⟨⟨h1, h2⟩, h3⟩

/-- A pixel is named by its reduced coordinates (R142). -/
theorem pixelAt_mod (d : Display) {c r c' r' : Nat} (hc : c % 64 = c' % 64) (hr : r % 32 = r' % 32) :
    pixelAt d c r = pixelAt d c' r' := by
  unfold pixelAt
  simp only [Config.dispHeight, Config.dispWidth, hc, hr]

/-- The compositor depends on the sprite's row bytes only. -/
theorem drawSprite_congr (vx vy : Nat) (f g : Nat → Byte) (n : Nat) (d : Display) (h : ∀ k, f k = g k) :
    drawSprite vx vy f n d = drawSprite vx vy g n d := by
  rw [funext h]

end Sys2Proof.Machine
end

