-- ==== Sys2Proof/Laws/Memory.lean ====
section
/-!
SUPPORT. The laws of memory (spec/20_memory.md R41, R42, R48): what a read gives after a write, and that every memory
operation keeps the canonical form.
-/

namespace Sys2Proof.Machine

theorem Memory.lookup_erase_self (m : List Host.Cell) (a : Nat) :
    Memory.lookup (Memory.erase m a) a = Memory.unlisted a := by
  induction m with
  | nil => rfl
  | cons c m ih =>
    by_cases h : c.1 = a
    · simpa [Memory.erase, h] using ih
    · simpa [Memory.erase, Memory.lookup, h] using ih

theorem Memory.lookup_erase_of_ne (m : List Host.Cell) {a k : Nat} (h : k ≠ a) :
    Memory.lookup (Memory.erase m a) k = Memory.lookup m k := by
  induction m with
  | nil => rfl
  | cons c m ih =>
    by_cases hc : c.1 = a
    · simpa [Memory.erase, Memory.lookup, hc, h.symm] using ih
    · by_cases hk : c.1 = k
      · simp [Memory.erase, Memory.lookup, hk, h]
      · simpa [Memory.erase, Memory.lookup, hc, hk] using ih

theorem Memory.lookup_insert_self (m : List Host.Cell) (a : Nat) (b : Byte) (h : ∀ c ∈ m, c.1 ≠ a) :
    Memory.lookup (Memory.insert m a b) a = b := by
  induction m with
  | nil => simp [Memory.insert, Memory.lookup]
  | cons c m ih =>
    have hc : c.1 ≠ a := h c (by simp)
    have ih' := ih fun d hd => h d (by simp [hd])
    by_cases hlt : a < c.1
    · simp [Memory.insert, Memory.lookup, hlt]
    · simpa [Memory.insert, Memory.lookup, hlt, hc] using ih'

theorem Memory.lookup_insert_of_ne (m : List Host.Cell) {a k : Nat} (b : Byte) (h : k ≠ a) :
    Memory.lookup (Memory.insert m a b) k = Memory.lookup m k := by
  induction m with
  | nil => simp [Memory.insert, Memory.lookup, h.symm]
  | cons c m ih =>
    unfold Memory.insert
    split
    · simp [Memory.lookup, h.symm]
    · by_cases hk : c.1 = k
      · simp [Memory.lookup, hk]
      · simpa [Memory.lookup, hk] using ih

theorem Memory.mem_erase {m : List Host.Cell} {a : Nat} {c : Host.Cell} :
    c ∈ Memory.erase m a ↔ c ∈ m ∧ c.1 ≠ a := by
  simp [Memory.erase]

/-- A read after a write at the same reduced address gives the byte written (R41, R48). -/
theorem Memory.read_write_same (m : List Host.Cell) {a k : Nat} (b : Byte)
    (h : k % Config.memSize = a % Config.memSize) : Memory.read (Memory.write m a b) k = b := by
  unfold Memory.read Memory.write
  rw [h]
  dsimp only
  split
  · next hb => rw [Memory.lookup_erase_self, hb]
  · exact Memory.lookup_insert_self _ _ _ fun c hc => (Memory.mem_erase.mp hc).2

/-- A write leaves every other reduced address alone (R41, R48). -/
theorem Memory.read_write_other (m : List Host.Cell) {a k : Nat} (b : Byte)
    (h : k % Config.memSize ≠ a % Config.memSize) : Memory.read (Memory.write m a b) k = Memory.read m k := by
  unfold Memory.read Memory.write
  dsimp only
  split
  · exact Memory.lookup_erase_of_ne _ h
  · rw [Memory.lookup_insert_of_ne _ _ h, Memory.lookup_erase_of_ne _ h]

/-- Bytes written in ascending order leave every address outside their range alone (R42). -/
theorem Memory.read_writeBytes_outside (l : List Byte) (m : List Host.Cell) {a k : Nat}
    (h : ∀ j, j < l.length → k % Config.memSize ≠ (a + j) % Config.memSize) :
    Memory.read (Memory.writeBytes m a l) k = Memory.read m k := by
  induction l generalizing m a with
  | nil => rfl
  | cons b l ih =>
    have h0 : k % Config.memSize ≠ a % Config.memSize := h 0 (by simp)
    rw [Memory.writeBytes, ih, Memory.read_write_other m b h0]
    intro j hj
    have := h (j + 1) (by simpa using hj)
    rwa [show a + 1 + j = a + (j + 1) by omega]

/-- Bytes written in ascending order stand at their addresses, when the range does not reach its own start (R42). -/
theorem Memory.read_writeBytes_inside (l : List Byte) (m : List Host.Cell) {a j : Nat}
    (hl : l.length ≤ Config.memSize) (hj : j < l.length) :
    Memory.read (Memory.writeBytes m a l) (a + j) = l[j] := by
  induction l generalizing m a j with
  | nil => simp at hj
  | cons b l ih =>
    simp only [List.length_cons, Config.memSize] at hl hj
    cases j with
    | zero =>
      rw [Memory.writeBytes, Memory.read_writeBytes_outside]
      · exact Memory.read_write_same m b rfl
      · intro k hk
        simp only [Config.memSize]
        omega
    | succ j =>
      have := ih (Memory.write m a b) (a := a + 1) (j := j) (by simp only [Config.memSize]; omega) (by omega)
      rw [show a + 1 + j = a + (j + 1) by omega] at this
      simpa [Memory.writeBytes] using this

theorem Memory.mem_insert {m : List Host.Cell} {a : Nat} {b : Byte} {c : Host.Cell}
    (h : c ∈ Memory.insert m a b) : c = (a, b) ∨ c ∈ m := by
  induction m with
  | nil => simpa [Memory.insert] using h
  | cons d m ih =>
    unfold Memory.insert at h
    split at h
    · simpa using h
    · rcases List.mem_cons.mp h with h | h
      · simp [h]
      · rcases ih h with h | h <;> simp [h]

theorem Memory.insert_sorted {m : List Host.Cell} (a : Nat) (b : Byte)
    (hs : m.Pairwise (fun c d => c.1 < d.1)) (hn : ∀ c ∈ m, c.1 ≠ a) :
    (Memory.insert m a b).Pairwise (fun c d => c.1 < d.1) := by
  induction m with
  | nil => simp [Memory.insert]
  | cons d m ih =>
    have hd := List.pairwise_cons.mp hs
    unfold Memory.insert
    split
    · next hlt =>
      refine List.pairwise_cons.mpr ⟨fun c hc => ?_, hs⟩
      rcases List.mem_cons.mp hc with rfl | hc
      · exact hlt
      · exact Nat.lt_trans hlt (hd.1 c hc)
    · next hge =>
      have hda : d.1 < a := by
        have := hn d (by simp)
        omega
      refine List.pairwise_cons.mpr ⟨fun c hc => ?_, ih hd.2 fun c hc => hn c (by simp [hc])⟩
      rcases Memory.mem_insert hc with rfl | hc
      · exact hda
      · exact hd.1 c hc

/-- A write keeps the canonical form. -/
theorem Memory.write_wf {m : List Host.Cell} (h : Memory.wf m) (a : Nat) (b : Byte) :
    Memory.wf (Memory.write m a b) := by
  have he : Memory.wf (Memory.erase m (a % Config.memSize)) :=
    ⟨h.1.filter _, fun c hc => h.2 c (Memory.mem_erase.mp hc).1⟩
  unfold Memory.write
  dsimp only
  split
  · exact he
  · next hb =>
    refine ⟨Memory.insert_sorted _ _ he.1 fun c hc => (Memory.mem_erase.mp hc).2, fun c hc => ?_⟩
    rcases Memory.mem_insert hc with rfl | hc
    · exact ⟨Nat.mod_lt _ (by decide), hb⟩
    · exact he.2 c hc

/-- Writing bytes keeps the canonical form. -/
theorem Memory.writeBytes_wf (l : List Byte) {m : List Host.Cell} (h : Memory.wf m) (a : Nat) :
    Memory.wf (Memory.writeBytes m a l) := by
  induction l generalizing m a with
  | nil => exact h
  | cons b l ih => exact ih (Memory.write_wf h a b) (a + 1)

/-- Memory at reset is in its canonical form. -/
theorem Memory.reset_wf : Memory.wf State.reset.mem := by
  simp [State.reset, Memory.wf]

/-- A read looks at its address modulo 4096 only (R41). -/
theorem Memory.read_mod (m : List Host.Cell) {a k : Nat} (h : a % Config.memSize = k % Config.memSize) :
    Memory.read m a = Memory.read m k := by
  unfold Memory.read
  rw [h]

/-- A write looks at its address modulo 4096 only (R41). -/
theorem Memory.write_mod (m : List Host.Cell) {a k : Nat} (b : Byte)
    (h : a % Config.memSize = k % Config.memSize) : Memory.write m a b = Memory.write m k b := by
  unfold Memory.write
  rw [h]

/-- Writing bytes looks at its address modulo 4096 only (R41). -/
theorem Memory.writeBytes_mod (l : List Byte) (m : List Host.Cell) {a k : Nat}
    (h : a % Config.memSize = k % Config.memSize) : Memory.writeBytes m a l = Memory.writeBytes m k l := by
  induction l generalizing m a k with
  | nil => rfl
  | cons b l ih =>
    have h1 : (a + 1) % Config.memSize = (k + 1) % Config.memSize := by
      simp only [Config.memSize] at h ⊢
      omega
    rw [Memory.writeBytes, Memory.writeBytes, Memory.write_mod m b h, ih _ h1]

end Sys2Proof.Machine
end

