-- ==== Sys2Proof/Laws/Operands.lean ====
section
/-!
SUPPORT. What the operand forms read and store (spec/42_index_and_memory.md R123 to R126).
-/

namespace Sys2Proof.Machine

/-- The range `0..x` has `x + 1` registers (R124). -/
@[simp] theorem State.regsUpTo_length (s : State) (x : Reg) : (s.regsUpTo x).length = x.val + 1 := by
  simp only [State.regsUpTo, List.length_take, Vector.length_toList]
  omega

/-- Byte `k` of the range is `V[k]` (R124). -/
theorem State.regsUpTo_get (s : State) (x : Reg) {k : Nat} (hk : k < (s.regsUpTo x).length) (h : k < 16) :
    (s.regsUpTo x)[k] = s.reg ⟨k, h⟩ := by
  simp only [State.regsUpTo, List.getElem_take, Vector.getElem_toList]
  rfl

/-- The stored bytes stand at the operand's addresses (R126, R42). -/
theorem State.operandByte_storeOperand (s : State) (l : List Byte) {k : Nat} (hl : l.length ≤ 4096)
    (hk : k < l.length) : Memory.read (s.storeOperand l).mem (s.operandAddr k) = l[k] :=
  Memory.read_writeBytes_inside l s.mem hl hk

/-- A store at the operand leaves every other address alone (R126, R42). -/
theorem State.read_storeOperand_outside (s : State) (l : List Byte) {a : Nat}
    (h : ∀ k, k < l.length → a % 4096 ≠ s.operandAddr k % 4096) :
    Memory.read (s.storeOperand l).mem a = Memory.read s.mem a :=
  Memory.read_writeBytes_outside l s.mem h

/-- A store at the operand keeps the canonical form. -/
theorem State.storeOperand_wf {s : State} (l : List Byte) (h : Memory.wf s.mem) :
    Memory.wf (s.storeOperand l).mem :=
  Memory.writeBytes_wf l h _

/-- An operand byte depends on memory and on `I` modulo 4096 only (R41). -/
theorem State.operandByte_congr {s t : State} (hm : t.mem = s.mem) (hi : t.i.toNat % 4096 = s.i.toNat % 4096)
    (k : Nat) : t.operandByte k = s.operandByte k := by
  unfold State.operandByte
  rw [hm]
  apply Memory.read_mod
  simp only [State.operandAddr, Config.memSize]
  omega

/-- The three digits of a byte (R123). -/
theorem decimalDigits_toNat (b : Byte) :
    (decimalDigits b).map BitVec.toNat = [b.toNat / 100, b.toNat / 10 % 10, b.toNat % 10] := by
  have := b.isLt
  simp only [decimalDigits, List.map_cons, List.map_nil, BitVec.toNat_ofNat, List.cons.injEq, and_true]
  omega

end Sys2Proof.Machine
end

