-- ==== Sys2Proof/Laws/PerInstr.lean ====
section
/-!
SUPPORT. Per instruction: the word the encoder writes carries the fixed bits of its row of spec/30_encoding.md R64
(`w & mask = match`).
-/

namespace Sys2Proof.Laws

/-- The encoded word selects its row (R64). -/
def FixedBits.Statement (i : Instr) : Prop := encode i &&& (opcodeRow i).1 = (opcodeRow i).2

theorem FixedBits.cls : FixedBits.Statement .cls := by unfold FixedBits.Statement; decide
theorem FixedBits.ret : FixedBits.Statement .ret := by unfold FixedBits.Statement; decide
theorem FixedBits.jp (nnn : Word) : FixedBits.Statement (.jp nnn) := formatA_and _ _
theorem FixedBits.call (nnn : Word) : FixedBits.Statement (.call nnn) := formatA_and _ _
theorem FixedBits.seImm (x : Reg) (kk : Byte) : FixedBits.Statement (.seImm x kk) := formatI_and_op _ _ _
theorem FixedBits.sneImm (x : Reg) (kk : Byte) : FixedBits.Statement (.sneImm x kk) := formatI_and_op _ _ _
theorem FixedBits.seReg (x y : Reg) : FixedBits.Statement (.seReg x y) := formatR_and_low _ _ _ _
theorem FixedBits.ldImm (x : Reg) (kk : Byte) : FixedBits.Statement (.ldImm x kk) := formatI_and_op _ _ _
theorem FixedBits.addImm (x : Reg) (kk : Byte) : FixedBits.Statement (.addImm x kk) := formatI_and_op _ _ _
theorem FixedBits.ldReg (x y : Reg) : FixedBits.Statement (.ldReg x y) := formatR_and_low _ _ _ _
theorem FixedBits.orReg (x y : Reg) : FixedBits.Statement (.orReg x y) := formatR_and_low _ _ _ _
theorem FixedBits.andReg (x y : Reg) : FixedBits.Statement (.andReg x y) := formatR_and_low _ _ _ _
theorem FixedBits.xorReg (x y : Reg) : FixedBits.Statement (.xorReg x y) := formatR_and_low _ _ _ _
theorem FixedBits.addReg (x y : Reg) : FixedBits.Statement (.addReg x y) := formatR_and_low _ _ _ _
theorem FixedBits.sub (x y : Reg) : FixedBits.Statement (.sub x y) := formatR_and_low _ _ _ _
theorem FixedBits.shr (x y : Reg) : FixedBits.Statement (.shr x y) := formatR_and_low _ _ _ _
theorem FixedBits.subn (x y : Reg) : FixedBits.Statement (.subn x y) := formatR_and_low _ _ _ _
theorem FixedBits.shl (x y : Reg) : FixedBits.Statement (.shl x y) := formatR_and_low _ _ _ _
theorem FixedBits.sneReg (x y : Reg) : FixedBits.Statement (.sneReg x y) := formatR_and_low _ _ _ _
theorem FixedBits.ldI (nnn : Word) : FixedBits.Statement (.ldI nnn) := formatA_and _ _
theorem FixedBits.jpV0 (nnn : Word) : FixedBits.Statement (.jpV0 nnn) := formatA_and _ _
theorem FixedBits.rnd (x : Reg) (kk : Byte) : FixedBits.Statement (.rnd x kk) := formatI_and_op _ _ _
theorem FixedBits.drw (x y : Reg) (n : Nat) : FixedBits.Statement (.drw x y n) := formatR_and_op _ _ _ _
theorem FixedBits.skp (x : Reg) : FixedBits.Statement (.skp x) := formatI_and_byte _ _ _
theorem FixedBits.sknp (x : Reg) : FixedBits.Statement (.sknp x) := formatI_and_byte _ _ _
theorem FixedBits.ldVxDt (x : Reg) : FixedBits.Statement (.ldVxDt x) := formatI_and_byte _ _ _
theorem FixedBits.ldVxK (x : Reg) : FixedBits.Statement (.ldVxK x) := formatI_and_byte _ _ _
theorem FixedBits.ldDtVx (x : Reg) : FixedBits.Statement (.ldDtVx x) := formatI_and_byte _ _ _
theorem FixedBits.ldStVx (x : Reg) : FixedBits.Statement (.ldStVx x) := formatI_and_byte _ _ _
theorem FixedBits.addI (x : Reg) : FixedBits.Statement (.addI x) := formatI_and_byte _ _ _
theorem FixedBits.ldF (x : Reg) : FixedBits.Statement (.ldF x) := formatI_and_byte _ _ _
theorem FixedBits.ldB (x : Reg) : FixedBits.Statement (.ldB x) := formatI_and_byte _ _ _
theorem FixedBits.storeRegs (x : Reg) : FixedBits.Statement (.storeRegs x) := formatI_and_byte _ _ _
theorem FixedBits.loadRegs (x : Reg) : FixedBits.Statement (.loadRegs x) := formatI_and_byte _ _ _

end Sys2Proof.Laws
end

