-- ==== Sys2Proof/Laws/Step.lean ====
section
/-!
SUPPORT. What a STEP and the machine's step do, case by case (spec/30_encoding.md R66, spec/60_exceptions.md R187), and
the two inversions.
-/

namespace Sys2Proof.Machine

theorem performStep_halted {s : State} (h : s.status = .halted) : performStep s = ignoreStep s := by
  simp [performStep, h]

theorem performStep_known {s : State} {i : Instr} (h : s.status = .running)
    (hd : decodeWord (fetchWord s) = .ok i) : performStep s = exec i (advance s) := by
  simp [performStep, h, hd]

theorem performStep_unknown {s : State} {e : DecodeError} (h : s.status = .running)
    (hd : decodeWord (fetchWord s) = .error e) : performStep s = skipUnknown (advance s) := by
  simp [performStep, h, hd]

/-- The inversion of a STEP (R66). -/
theorem performStep_cases {s t : State} (h : performStep s = .next t) :
    (s.status = .halted ∧ t = s.setResult .ignored) ∨
    (s.status = .running ∧ ∃ i, decodeWord (fetchWord s) = .ok i ∧ exec i (advance s) = .next t) ∨
    (s.status = .running ∧ ∃ e, decodeWord (fetchWord s) = .error e ∧ t = (advance s).setResult .nopUnknown) := by
  cases hs : s.status with
  | halted =>
    rw [performStep_halted hs] at h
    exact .inl ⟨rfl, by simpa [ignoreStep, eq_comm] using h⟩
  | running =>
    cases hd : decodeWord (fetchWord s) with
    | ok i => exact .inr (.inl ⟨rfl, i, rfl, (performStep_known hs hd).symm.trans h⟩)
    | error e =>
      rw [performStep_unknown hs hd] at h
      exact .inr (.inr ⟨rfl, e, rfl, by simpa [skipUnknown, eq_comm] using h⟩)

/-- The next transaction is the head of a schedule that is not empty. -/
theorem nextTransaction_scheduled {s : State} {tr : Transaction} {rest : List Transaction}
    (h : s.schedule = tr :: rest) : nextTransaction s = tr := by
  simp [nextTransaction, h]

/-- With nothing scheduled the next transaction is a free value. -/
theorem nextTransaction_unscheduled {s : State} (h : s.schedule = []) :
    nextTransaction s = Config.transaction s.draws := by
  simp [nextTransaction, h]

theorem takeTransaction_scheduled {s : State} {tr : Transaction} {rest : List Transaction}
    (h : s.schedule = tr :: rest) : takeTransaction s = { s with schedule := rest } := by
  simp [takeTransaction, h]

theorem takeTransaction_unscheduled {s : State} (h : s.schedule = []) :
    takeTransaction s = { s with draws := s.draws + 1 } := by
  simp [takeTransaction, h]

/-- The machine's step performs the next transaction (R187). -/
theorem step_eq {s : State} {tr : Transaction} (h : nextTransaction s = tr) :
    step s = perform tr (takeTransaction s) := by
  rw [step, performNext, h]

/-- The inversion of the machine's step (R187). -/
theorem step_cases {s t : State} (h : step s = .next t) :
    (∃ r, nextTransaction s = .step r ∧ performStep { takeTransaction s with rand := r } = .next t) ∨
    (∃ font program, nextTransaction s = .reset font program ∧ t = performReset font program (takeTransaction s)) ∨
    (nextTransaction s = .tick ∧ t = performTick (takeTransaction s)) ∨
    (∃ k, nextTransaction s = .setKeys k ∧ t = performSetKeys k (takeTransaction s)) := by
  cases htr : nextTransaction s with
  | step r => exact .inl ⟨r, rfl, (step_eq htr).symm.trans h⟩
  | reset font program =>
    exact .inr (.inl ⟨font, program, rfl, (Host.Outcome.next.inj ((step_eq htr).symm.trans h)).symm⟩)
  | tick => exact .inr (.inr (.inl ⟨rfl, (Host.Outcome.next.inj ((step_eq htr).symm.trans h)).symm⟩))
  | setKeys k => exact .inr (.inr (.inr ⟨k, rfl, (Host.Outcome.next.inj ((step_eq htr).symm.trans h)).symm⟩))

/-- The fetch looks at memory and PC only (R44). -/
theorem fetchWord_congr {s t : State} (hm : t.mem = s.mem) (hp : t.pc = s.pc) : fetchWord t = fetchWord s := by
  simp [fetchWord, hm, hp]

end Sys2Proof.Machine
end

