-- ==== Sys2Proof/Laws/Transactions.lean ====
section
/-!
SUPPORT. What the transactions other than STEP do (spec/70_reset_and_hazards.md R200, R201; spec/60_exceptions.md
R180): the two outcomes of RESET and the fields the refused one fixes, and the timer count.
-/

namespace Sys2Proof.Machine

theorem performReset_accepted {font : Vector Byte 80} {program : List Byte} (s : State)
    (h : program.length ≤ Config.programMax) : performReset font program s = acceptReset font program s := by
  simp only [performReset, h, if_true]

theorem performReset_refused {font : Vector Byte 80} {program : List Byte} (s : State)
    (h : ¬ program.length ≤ Config.programMax) : performReset font program s = refuseReset s := by
  simp only [performReset, h, if_false]

theorem resetMemory_wf (font : Vector Byte 80) (program : List Byte) : Memory.wf (resetMemory font program) :=
  Memory.writeBytes_wf _ (Memory.writeBytes_wf _ Memory.reset_wf _) _

theorem unspecMemory_wf (n : Nat) : Memory.wf (unspecMemory n) :=
  Memory.writeBytes_wf _ Memory.reset_wf _

variable (s : State)

@[simp] theorem refuseReset_mem : (refuseReset s).mem = unspecMemory s.draws := by simp only [refuseReset]
@[simp] theorem refuseReset_status : (refuseReset s).status = .halted := by simp only [refuseReset]
@[simp] theorem refuseReset_faultCause : (refuseReset s).faultCause = .initError := by simp only [refuseReset]
@[simp] theorem refuseReset_faultPc : (refuseReset s).faultPc = 0 := by simp only [refuseReset]
@[simp] theorem refuseReset_faultWord : (refuseReset s).faultWord = 0 := by simp only [refuseReset]
@[simp] theorem refuseReset_rand : (refuseReset s).rand = s.rand := by simp only [refuseReset]
@[simp] theorem refuseReset_draws : (refuseReset s).draws = s.draws + 1 := by simp only [refuseReset]
@[simp] theorem refuseReset_schedule : (refuseReset s).schedule = s.schedule := by simp only [refuseReset]

/-- A timer counts down to 0 and stays there (R180). -/
theorem countDown_toNat (t : Byte) : (countDown t).toNat = t.toNat - 1 := by
  have := t.isLt
  unfold countDown
  split
  · rw [BitVec.toNat_sub]
    simp
    omega
  · omega

end Sys2Proof.Machine
end

