-- ==== Sys2Proof/Tests/Slice0.lean ====
section
/-!
SUPPORT. The author's own tests. Every expected value is written from the spec: words from the patterns of
spec/30_encoding.md R64, results from the vectors of spec/95_test_vectors.md, named by their numbers (A1, B7, ...).
-/

namespace Sys2Proof.Tests

open Sys2Proof Sys2Proof.Machine Sys2Proof.Claims

/-! ## Ill-formed terms are refused -/

theorem test_wf_jp_too_wide : ¬ (Instr.jp 0x1000).WellFormed := by decide
theorem test_wf_call_too_wide : ¬ (Instr.call 0xFFFF).WellFormed := by decide
theorem test_wf_ldI_too_wide : ¬ (Instr.ldI 0x1234).WellFormed := by decide
theorem test_wf_jpV0_too_wide : ¬ (Instr.jpV0 0x8000).WellFormed := by decide
theorem test_wf_drw_too_many_rows : ¬ (Instr.drw 0 0 16).WellFormed := by decide
theorem test_wf_widest_accepted : (Instr.jp 0x0FFF).WellFormed ∧ (Instr.drw 15 15 15).WellFormed := by decide

/-! ## One word per constructor, written out from R64: what it decodes to, and what encodes to it -/

/-- The word decodes to the instruction and the instruction encodes to the word. -/
abbrev Codes (w : Word) (i : Instr) : Prop := decodeWord w = .ok i ∧ encode i = w

theorem test_code_cls : Codes 0b0000000011100000 .cls := by decide
theorem test_code_ret : Codes 0b0000000011101110 .ret := by decide
theorem test_code_jp : Codes 0b0001001101000101 (.jp 0x345) := by decide
theorem test_code_call : Codes 0b0010101010111100 (.call 0xABC) := by decide
theorem test_code_seImm : Codes 0b0011001101000010 (.seImm 3 0x42) := by decide
theorem test_code_sneImm : Codes 0b0100001101000010 (.sneImm 3 0x42) := by decide
theorem test_code_seReg : Codes 0b0101001101000000 (.seReg 3 4) := by decide
theorem test_code_ldImm : Codes 0b0110101000101111 (.ldImm 10 0x2F) := by decide
theorem test_code_addImm : Codes 0b0111000100000010 (.addImm 1 0x02) := by decide
theorem test_code_ldReg : Codes 0b1000000100100000 (.ldReg 1 2) := by decide
theorem test_code_orReg : Codes 0b1000000100100001 (.orReg 1 2) := by decide
theorem test_code_andReg : Codes 0b1000000100100010 (.andReg 1 2) := by decide
theorem test_code_xorReg : Codes 0b1000000100100011 (.xorReg 1 2) := by decide
theorem test_code_addReg : Codes 0b1000111100100100 (.addReg 15 2) := by decide
theorem test_code_sub : Codes 0b1000000111110101 (.sub 1 15) := by decide
theorem test_code_shr : Codes 0b1000000100110110 (.shr 1 3) := by decide
theorem test_code_subn : Codes 0b1000000100100111 (.subn 1 2) := by decide
theorem test_code_shl : Codes 0b1000000100111110 (.shl 1 3) := by decide
theorem test_code_sneReg : Codes 0b1001001101000000 (.sneReg 3 4) := by decide
theorem test_code_ldI : Codes 0b1010001011110000 (.ldI 0x2F0) := by decide
theorem test_code_jpV0 : Codes 0b1011111111111111 (.jpV0 0xFFF) := by decide
theorem test_code_rnd : Codes 0b1100000100001111 (.rnd 1 0x0F) := by decide
theorem test_code_drw : Codes 0b1101000011110101 (.drw 0 15 5) := by decide
theorem test_code_skp : Codes 0b1110001010011110 (.skp 2) := by decide
theorem test_code_sknp : Codes 0b1110001010100001 (.sknp 2) := by decide
theorem test_code_ldVxDt : Codes 0b1111010000000111 (.ldVxDt 4) := by decide
theorem test_code_ldVxK : Codes 0b1111001100001010 (.ldVxK 3) := by decide
theorem test_code_ldDtVx : Codes 0b1111010000010101 (.ldDtVx 4) := by decide
theorem test_code_ldStVx : Codes 0b1111010000011000 (.ldStVx 4) := by decide
theorem test_code_addI : Codes 0b1111001000011110 (.addI 2) := by decide
theorem test_code_ldF : Codes 0b1111001000101001 (.ldF 2) := by decide
theorem test_code_ldB : Codes 0b1111010100110011 (.ldB 5) := by decide
theorem test_code_storeRegs : Codes 0b1111001001010101 (.storeRegs 2) := by decide
theorem test_code_loadRegs : Codes 0b1111001001100101 (.loadRegs 2) := by decide

/-- One word of each class of R68 (vectors F9, F11 to F15). -/
theorem test_unknown_words :
    decodeWord 0x0123 = .error .zeroGroup ∧ decodeWord 0x5341 = .error .skipEqualGroup ∧
    decodeWord 0x8128 = .error .aluGroup ∧ decodeWord 0x9341 = .error .skipNotEqualGroup ∧
    decodeWord 0xE19F = .error .keyGroup ∧ decodeWord 0xF075 = .error .miscGroup := by decide

/-- The high byte is the first byte (F1); one byte is no word. -/
theorem test_decode_bytes :
    decodeBytes [0x6A, 0x2F, 0x99] = .ok (.ldImm 10 0x2F, [0x99]) ∧ decodeBytes [0x6A] = .error .truncated := by decide

theorem test_decode_table_word : decodeTableWord 16 0x6A2F = some (.ldImm 10 0x2F) := by decide

/-! ## One STEP -/

/-- The reset state at address `pc` with the registers of `regs` loaded. -/
def at_ (pc : Word) (regs : List (Reg × Byte)) : State :=
  regs.foldl (fun s p => s.setReg p.1 p.2) { State.reset with pc := pc }

/-- The next state an outcome answers. -/
def nextOf : Result → Option State
  | .next t => some t
  | .fault _ => none
  | .refused _ => none

/-- The state after one STEP on the word `w` at PC, with random byte 0xA7. -/
def after (s : State) (w : Word) : State := (nextOf (perform (.step 0xA7) (placeWord s w))).getD s

/-- The bytes at addresses `a` to `a + n - 1`. -/
def bytes (s : State) (a n : Nat) : List Byte := (List.range n).map fun k => Memory.read s.mem (a + k)

/-- F4. -/
theorem test_fetch_wraps :
    (after (at_ 0xFFFF []) 0x6A2F).reg 10 = 0x2F ∧ (after (at_ 0xFFFF []) 0x6A2F).pc = 0x0001 := by decide

/-- F6. -/
theorem test_skip_wraps :
    (after (at_ 0xFFFE []) 0x3000).pc = 0x0002 := by decide

/-- F11. -/
theorem test_unknown_is_nop :
    (after (at_ 0x200 [(3, 9), (4, 9)]) 0x5341).pc = 0x202 ∧
    (after (at_ 0x200 [(3, 9), (4, 9)]) 0x5341).result = some .nopUnknown := by decide

/-- B1. -/
theorem test_jp :
    (after (at_ 0x200 []) 0x1345).pc = 0x345 := by decide

/-- B6. -/
theorem test_call :
    (after { at_ 0x2FE [] with sp := 15 } 0x2400).pc = 0x400 ∧ (after { at_ 0x2FE [] with sp := 15 } 0x2400).sp = 16 ∧
    (after { at_ 0x2FE [] with sp := 15 } 0x2400).stack[15] = 0x300 := by decide

/-- B7. -/
theorem test_call_full :
    statusView (after { at_ 0x2FE [] with sp := 16 } 0x2400)
      = { status := .halted, faultCause := 1, faultPc := 0x2FE, faultWord := 0x2400,
          result := some (.fatal .stackOverflow) } ∧
    (after { at_ 0x2FE [] with sp := 16 } 0x2400).pc = 0x300 := by decide

/-- B8. -/
theorem test_ret :
    (after { at_ 0x300 [] with sp := 1, stack := State.reset.stack.set 0 0x456 } 0x00EE).pc = 0x456 ∧
    (after { at_ 0x300 [] with sp := 1, stack := State.reset.stack.set 0 0x456 } 0x00EE).sp = 0 := by decide

/-- B10. -/
theorem test_ret_empty :
    statusView (after (at_ 0x300 []) 0x00EE)
      = { status := .halted, faultCause := 2, faultPc := 0x300, faultWord := 0x00EE,
          result := some (.fatal .stackUnderflow) } ∧
    (after (at_ 0x300 []) 0x00EE).pc = 0x302 := by decide

/-- B12. -/
theorem test_seImm_skips :
    (after (at_ 0x200 [(3, 0x42)]) 0x3342).pc = 0x204 := by decide

/-- B13. -/
theorem test_seImm_falls :
    (after (at_ 0x200 [(3, 0x43)]) 0x3342).pc = 0x202 := by decide

/-- B14. -/
theorem test_sneImm_falls :
    (after (at_ 0x200 [(3, 0x42)]) 0x4342).pc = 0x202 := by decide

/-- B15. -/
theorem test_sneImm_skips :
    (after (at_ 0x200 [(3, 0x43)]) 0x4342).pc = 0x204 := by decide

/-- B16. -/
theorem test_seReg_skips :
    (after (at_ 0x200 [(3, 9), (4, 9)]) 0x5340).pc = 0x204 := by decide

/-- B17. -/
theorem test_seReg_falls :
    (after (at_ 0x200 [(3, 9), (4, 8)]) 0x5340).pc = 0x202 := by decide

/-- B19. -/
theorem test_sneReg_falls :
    (after (at_ 0x200 [(3, 9), (4, 9)]) 0x9340).pc = 0x202 := by decide

/-- B20. -/
theorem test_sneReg_skips :
    (after (at_ 0x200 [(3, 9), (4, 8)]) 0x9340).pc = 0x204 := by decide

/-- B22. -/
theorem test_jpV0 :
    (after (at_ 0x200 [(0, 0x10)]) 0xB300).pc = 0x310 := by decide

/-- B23. -/
theorem test_jpV0_unreduced :
    (after (at_ 0x200 [(0, 0xFF)]) 0xBFFF).pc = 0x10FE := by decide

/-- A1. -/
theorem test_ldImm :
    (after (at_ 0x200 [(1, 0x11)]) 0x61AB).reg 1 = 0xAB := by decide

/-- A2. -/
theorem test_addImm_wraps :
    (after (at_ 0x200 [(1, 0xFF), (15, 0x55)]) 0x7102).reg 1 = 0x01 ∧
    (after (at_ 0x200 [(1, 0xFF), (15, 0x55)]) 0x7102).reg 15 = 0x55 := by decide

/-- A5. -/
theorem test_ldReg :
    (after (at_ 0x200 [(1, 0x11), (2, 0x22)]) 0x8120).reg 1 = 0x22 := by decide

/-- A7. -/
theorem test_orReg :
    (after (at_ 0x200 [(1, 0xF0), (2, 0x0F), (15, 0x55)]) 0x8121).reg 1 = 0xFF ∧
    (after (at_ 0x200 [(1, 0xF0), (2, 0x0F), (15, 0x55)]) 0x8121).reg 15 = 0x55 := by decide

/-- A8. -/
theorem test_andReg :
    (after (at_ 0x200 [(1, 0xF0), (2, 0x3C), (15, 0x55)]) 0x8122).reg 1 = 0x30 ∧
    (after (at_ 0x200 [(1, 0xF0), (2, 0x3C), (15, 0x55)]) 0x8122).reg 15 = 0x55 := by decide

/-- A9. -/
theorem test_xorReg :
    (after (at_ 0x200 [(1, 0xF0), (2, 0x3C), (15, 0x55)]) 0x8123).reg 1 = 0xCC ∧
    (after (at_ 0x200 [(1, 0xF0), (2, 0x3C), (15, 0x55)]) 0x8123).reg 15 = 0x55 := by decide

/-- A13. -/
theorem test_addReg_no_carry :
    (after (at_ 0x200 [(1, 0x80), (2, 0x7F)]) 0x8124).reg 1 = 0xFF ∧
    (after (at_ 0x200 [(1, 0x80), (2, 0x7F)]) 0x8124).reg 15 = 0 := by decide

/-- A18. -/
theorem test_addReg_old_vf :
    (after (at_ 0x200 [(1, 0xF0), (15, 0x20)]) 0x81F4).reg 1 = 0x10 ∧
    (after (at_ 0x200 [(1, 0xF0), (15, 0x20)]) 0x81F4).reg 15 = 1 := by decide

/-- A21. -/
theorem test_sub_equal :
    (after (at_ 0x200 [(1, 0x10), (2, 0x10)]) 0x8125).reg 1 = 0x00 ∧
    (after (at_ 0x200 [(1, 0x10), (2, 0x10)]) 0x8125).reg 15 = 1 := by decide

/-- A25. -/
theorem test_sub_into_vf :
    (after (at_ 0x200 [(15, 0x09), (2, 0x02)]) 0x8F25).reg 15 = 1 := by decide

/-- A33. -/
theorem test_shr_ignores_y :
    (after (at_ 0x200 [(1, 0x80), (3, 0xFF)]) 0x8136).reg 1 = 0x40 ∧
    (after (at_ 0x200 [(1, 0x80), (3, 0xFF)]) 0x8136).reg 15 = 0 := by decide

/-- A35. -/
theorem test_shr_vf :
    (after (at_ 0x200 [(15, 0x04)]) 0x8F06).reg 15 = 0 := by decide

/-- A28. -/
theorem test_subn :
    (after (at_ 0x200 [(1, 0x05), (2, 0x07)]) 0x8127).reg 1 = 0x02 ∧
    (after (at_ 0x200 [(1, 0x05), (2, 0x07)]) 0x8127).reg 15 = 1 := by decide

/-- A29. -/
theorem test_subn_borrow :
    (after (at_ 0x200 [(1, 0x07), (2, 0x05)]) 0x8127).reg 1 = 0xFE ∧
    (after (at_ 0x200 [(1, 0x07), (2, 0x05)]) 0x8127).reg 15 = 0 := by decide

/-- A37. -/
theorem test_shl :
    (after (at_ 0x200 [(1, 0x81)]) 0x810E).reg 1 = 0x02 ∧
    (after (at_ 0x200 [(1, 0x81)]) 0x810E).reg 15 = 1 := by decide

/-- A40. -/
theorem test_shl_vf :
    (after (at_ 0x200 [(15, 0xC0)]) 0x8FFE).reg 15 = 1 := by decide

/-- A41. -/
theorem test_rnd :
    (after (at_ 0x200 [(1, 0x55), (15, 0x55)]) 0xC10F).reg 1 = 0x07 ∧
    (after (at_ 0x200 [(1, 0x55), (15, 0x55)]) 0xC10F).reg 15 = 0x55 := by decide

/-- R120. -/
theorem test_ldI :
    (after (at_ 0x200 []) 0xA2F0).i = 0x2F0 := by decide

/-- M3. -/
theorem test_addI_wraps :
    (after { at_ 0x200 [(2, 0x02)] with i := 0xFFFF } 0xF21E).i = 0x0001 := by decide

/-- M7. -/
theorem test_ldF_no_mask :
    (after (at_ 0x200 [(2, 0x1A)]) 0xF229).i = 0x82 := by decide

/-- M9. -/
theorem test_ldB :
    bytes (after { at_ 0x200 [(5, 0xFF)] with i := 0x300 } 0xF533) 0x300 3 = [2, 5, 5] ∧
    (after { at_ 0x200 [(5, 0xFF)] with i := 0x300 } 0xF533).i = 0x300 := by decide

/-- M12. -/
theorem test_ldB_wraps :
    bytes (after { at_ 0x200 [(5, 0xEA)] with i := 0xFFE } 0xF533) 0xFFE 3 = [2, 3, 4] := by decide

/-- M15. -/
theorem test_storeRegs_inclusive :
    bytes (after { at_ 0x200 [(0, 0x11), (1, 0x22), (2, 0x33), (3, 0x44)] with i := 0x400 } 0xF255) 0x400 4 = [0x11, 0x22, 0x33, 0] ∧
    (after { at_ 0x200 [(0, 0x11), (1, 0x22), (2, 0x33), (3, 0x44)] with i := 0x400 } 0xF255).i = 0x400 := by decide

/-- M19. -/
theorem test_storeRegs_over_itself :
    bytes (after { at_ 0x200 [(0, 0x12), (1, 0x34)] with i := 0x200 } 0xF155) 0x200 2 = [0x12, 0x34] ∧
    (after { at_ 0x200 [(0, 0x12), (1, 0x34)] with i := 0x200 } 0xF155).pc = 0x202 := by decide

/-- M20. -/
theorem test_loadRegs_inclusive :
    (after { at_ 0x200 [(3, 9)] with i := 0x400, mem := Memory.writeBytes [] 0x400 [0x11, 0x22, 0x33, 0x44] } 0xF265).reg 0 = 0x11 ∧
    (after { at_ 0x200 [(3, 9)] with i := 0x400, mem := Memory.writeBytes [] 0x400 [0x11, 0x22, 0x33, 0x44] } 0xF265).reg 2 = 0x33 ∧
    (after { at_ 0x200 [(3, 9)] with i := 0x400, mem := Memory.writeBytes [] 0x400 [0x11, 0x22, 0x33, 0x44] } 0xF265).reg 3 = 9 ∧
    (after { at_ 0x200 [(3, 9)] with i := 0x400, mem := Memory.writeBytes [] 0x400 [0x11, 0x22, 0x33, 0x44] } 0xF265).i = 0x400 := by decide

/-- M21. -/
theorem test_loadRegs_wraps :
    (after { at_ 0x200 [] with i := 0xFFE, mem := Memory.writeBytes [] 0xFFE [1, 2, 3, 4] } 0xF365).reg 1 = 2 ∧
    (after { at_ 0x200 [] with i := 0xFFE, mem := Memory.writeBytes [] 0xFFE [1, 2, 3, 4] } 0xF365).reg 2 = 3 := by decide

/-- The display with exactly the pixels of `l` lit. -/
def lit (l : List (Nat × Nat)) : Display := l.foldl (fun d p => xorPixel d p.1 p.2 true) blankDisplay

/-- G19. -/
theorem test_cls :
    (after { at_ 0x200 [(15, 0x5A)] with disp := lit [(3, 4)] } 0x00E0).disp = blankDisplay ∧ (after { at_ 0x200 [(15, 0x5A)] with disp := lit [(3, 4)] } 0x00E0).reg 15 = 0x5A := by decide

/-- S4, G4. -/
theorem test_drw_wraps :
    (after { at_ 0x200 [(0, 0x3C)] with i := 0x300, mem := Memory.writeBytes [] 0x300 [0xFF] } 0xD011).disp = lit [(60, 0), (61, 0), (62, 0), (63, 0), (0, 0), (1, 0), (2, 0), (3, 0)] ∧ (after { at_ 0x200 [(0, 0x3C)] with i := 0x300, mem := Memory.writeBytes [] 0x300 [0xFF] } 0xD011).reg 15 = 0 := by decide

/-- G14. -/
theorem test_drw_origin_vf :
    (after { at_ 0x200 [(15, 3)] with i := 0x300, mem := Memory.writeBytes [] 0x300 [0x80], disp := lit [(3, 3)] } 0xDFF1).disp = blankDisplay ∧ (after { at_ 0x200 [(15, 3)] with i := 0x300, mem := Memory.writeBytes [] 0x300 [0x80], disp := lit [(3, 3)] } 0xDFF1).reg 15 = 1 := by decide

/-- K3. -/
theorem test_skp_other_keys :
    (after { at_ 0x200 [(2, 5)] with keys := 0xFFDF } 0xE29E).pc = 0x202 := by decide

/-- K4. -/
theorem test_skp_low_nibble :
    (after { at_ 0x200 [(2, 0x1A)] with keys := 0x0400 } 0xE29E).pc = 0x204 := by decide

/-- K7. -/
theorem test_sknp_held :
    (after { at_ 0x200 [(2, 0xF5)] with keys := 0x0020 } 0xE2A1).pc = 0x202 := by decide

/-- K6. -/
theorem test_sknp_not_held :
    (after { at_ 0x200 [(2, 5)] with keys := 0 } 0xE2A1).pc = 0x204 := by decide

/-- K8. -/
theorem test_ldVxK_waits :
    (after { at_ 0x200 [(3, 0x99)] with keys := 0 } 0xF30A).pc = 0x200 ∧
    (after { at_ 0x200 [(3, 0x99)] with keys := 0 } 0xF30A).reg 3 = 0x99 ∧
    (after { at_ 0x200 [(3, 0x99)] with keys := 0 } 0xF30A).result = some .waitingKey := by decide

/-- K9. -/
theorem test_ldVxK_lowest :
    (after { at_ 0x200 [(3, 0x99)] with keys := 0x0208 } 0xF30A).reg 3 = 3 ∧
    (after { at_ 0x200 [(3, 0x99)] with keys := 0x0208 } 0xF30A).pc = 0x202 := by decide

/-- K11. -/
theorem test_ldVxDt :
    (after { at_ 0x200 [(4, 0x99)] with dt := 0x2A, st := 0x10 } 0xF407).reg 4 = 0x2A := by decide

/-- K12. -/
theorem test_ldDtVx :
    (after { at_ 0x200 [(4, 0x99)] with dt := 0x2A, st := 0x10 } 0xF415).dt = 0x99 ∧ (after { at_ 0x200 [(4, 0x99)] with dt := 0x2A, st := 0x10 } 0xF415).st = 0x10 := by decide

/-- K13. -/
theorem test_ldStVx :
    (after { at_ 0x200 [(4, 0x99)] with dt := 0x2A, st := 0x10 } 0xF418).st = 0x99 ∧ (after { at_ 0x200 [(4, 0x99)] with dt := 0x2A, st := 0x10 } 0xF418).dt = 0x2A := by decide

/-! ## The other transactions -/

/-- K14. -/
theorem test_tick :
    (performTick { State.reset with dt := 0xFF, st := 0x01 }).dt = 0xFE ∧
    (performTick { State.reset with dt := 0xFF, st := 0x01 }).st = 0 ∧
    (performTick { State.reset with dt := 0, st := 0 }).dt = 0 := by decide

/-- K15. -/
theorem test_setKeys : (performSetKeys 0x8001 State.reset).keys = 0x8001 := by decide

/-- Section 9's RESET, with the customary font. -/
theorem test_reset_font :
    bytes State.reset 0 5 = [0xF0, 0x90, 0x90, 0x90, 0xF0] ∧
    bytes State.reset 0x4B 6 = [0xF0, 0x80, 0xF0, 0x80, 0x80, 0] := by decide

set_option maxRecDepth 4000 in
/-- Section 9's RESET with the program 12 34 56, over another font. -/
theorem test_reset_images :
    bytes (performReset (Vector.replicate 80 0xAB) [0x12, 0x34, 0x56] State.reset) 0x1FF 5 = [0, 0x12, 0x34, 0x56, 0] ∧
    bytes (performReset (Vector.replicate 80 0xAB) [0x12, 0x34, 0x56] State.reset) 0x4F 2 = [0xAB, 0] := by decide

/-- X1: a halted block ignores a STEP. -/
theorem test_halted :
    (after { State.reset with status := .halted } 0x6A2F).result = some .ignored ∧
    (after { State.reset with status := .halted } 0x6A2F).pc = 0x200 := by decide

/-- The word placed by `withFetchWord` is the one the very next step runs after reset (A1). -/
theorem test_with_fetch_word :
    (nextOf (step (State.reset.withFetchWord 16 0x61AB))).map (fun t => (t.reg 1, t.pc, t.result))
      = some (0xAB, 0x202, some .executed) := by decide

/-- The schedule is performed in order: the first step is the TICK, the STEP behind it waits. -/
theorem test_schedule :
    nextOf (step { State.reset with dt := 5, schedule := [.tick, .step 0] })
      = some { State.reset with dt := 4, schedule := [.step 0] } := by decide

/-! ## Witnesses: for each statement with hypotheses, concrete values that meet all of them together -/

/-- The reset state with the word `w` at PC. -/
def holding (w : Word) : State := placeWord State.reset w

/-- The reset state with the word `w` at PC and the stack pointer at `sp`. -/
def depth (sp : Fin 17) (w : Word) : State := { holding w with sp := sp }

/-- An instruction that touches neither a timer, the keys, PC, the stack, `I`, memory nor the display, and completes:
it meets the hypotheses of OnlyCallAndReturnRaise, TickAndSetKeysCommuteWithOtherInstructions, OtherInstructionsFlowOn,
OnlyCallAndReturnTouchTheStack, RandomByteIsMasked (third part), RegistersChangeOnlyAsDestinations,
IndexChangesOnlyByItsThreeWriters, MemoryIsWrittenOnlyByItsTwoStores, DisplayChangesOnlyByClearAndDraw and
TimersAndKeysKeepTheirWriters. -/
theorem witness_plain_instruction :
    ∃ t, exec (.ldImm 1 0xAB) State.reset = .next t ∧ mayWritePc (.ldImm 1 0xAB) = false ∧
      mayWriteReg (.ldImm 1 0xAB) 2 = false ∧ State.reset.status = .running ∧
      (∀ x, Instr.ldImm 1 0xAB ≠ .ldVxDt x ∧ Instr.ldImm 1 0xAB ≠ .ldDtVx x ∧ Instr.ldImm 1 0xAB ≠ .ldStVx x) ∧
      (∀ x, Instr.ldImm 1 0xAB ≠ .skp x ∧ Instr.ldImm 1 0xAB ≠ .sknp x ∧ Instr.ldImm 1 0xAB ≠ .ldVxK x) ∧
      (∀ x kk, Instr.ldImm 1 0xAB ≠ .rnd x kk) ∧ (∀ nnn, Instr.ldImm 1 0xAB ≠ .call nnn) ∧ Instr.ldImm 1 0xAB ≠ .ret ∧
      (∀ nnn, Instr.ldImm 1 0xAB ≠ .ldI nnn) ∧ (∀ x, Instr.ldImm 1 0xAB ≠ .addI x ∧ Instr.ldImm 1 0xAB ≠ .ldF x) ∧
      (∀ x, Instr.ldImm 1 0xAB ≠ .ldB x ∧ Instr.ldImm 1 0xAB ≠ .storeRegs x) ∧ Instr.ldImm 1 0xAB ≠ .cls ∧
      (∀ x y n, Instr.ldImm 1 0xAB ≠ .drw x y n) := by
  refine ⟨_, rfl, rfl, rfl, rfl, ?_⟩
  simp

theorem witness_DecodeOfEncodeIsIdentity : (Instr.drw 15 15 15).WellFormed := by decide

theorem witness_EncodeOfDecodeIsIdentity : decodeWord 0xD0F5 = .ok (.drw 0 15 5) := by decide

/-- A word for each of the two clauses. -/
theorem witness_TableRowsAreDisjoint :
    decodeWord 0x8FFE = .ok (.shl 15 15) ∧ decodeWord 0x8FFF = .error .aluGroup := by decide

/-- Each class at a boundary of its range, and the accepted words beside it. -/
theorem witness_UnknownWordsAreTheSixClasses :
    decodeWord 0x0FFF = .error .zeroGroup ∧ decodeWord 0x5001 = .error .skipEqualGroup ∧
    decodeWord 0x800F = .error .aluGroup ∧ decodeWord 0x800D = .error .aluGroup ∧
    decodeWord 0x9FFF = .error .skipNotEqualGroup ∧ decodeWord 0xE0A2 = .error .keyGroup ∧
    decodeWord 0xF064 = .error .miscGroup ∧ decodeWord 0x800E = .ok (.shl 0 0) := by decide

theorem witness_StepRunsTheDecodedInstruction :
    (holding 0x61AB).status = .running ∧
    decodeBytes [Memory.read (holding 0x61AB).mem (holding 0x61AB).pc.toNat,
      Memory.read (holding 0x61AB).mem ((holding 0x61AB).pc.toNat + 1)] = .ok (.ldImm 1 0xAB, []) ∧
    nextTransaction { holding 0x61AB with schedule := [.step 7] } = .step 7 := by decide

/-- Each clause: a schedule with each transaction at its head, and the empty schedule. -/
theorem witness_StepPerformsTheNextTransaction :
    { State.reset with schedule := [Transaction.tick] }.schedule = .tick :: [] ∧ State.reset.schedule = [] ∧
    nextTransaction { State.reset with schedule := [.step 7] } = .step 7 ∧
    nextTransaction { State.reset with schedule := [.reset (Vector.replicate 80 0) [0x12]] }
      = .reset (Vector.replicate 80 0) [0x12] ∧
    nextTransaction { State.reset with schedule := [.tick] } = .tick ∧
    nextTransaction { State.reset with schedule := [.setKeys 1] } = .setKeys 1 := ⟨rfl, rfl, rfl, rfl, rfl, rfl⟩

theorem witness_UnknownWordIsASilentNop :
    (holding 0x5341).status = .running ∧ ∀ row ∈ opcodeRows, fetchWord (holding 0x5341) &&& row.1 ≠ row.2 := by
  have h : fetchWord (holding 0x5341) = 0x5341 := by decide
  rw [h]
  exact ⟨by decide, by simp [opcodeRows]⟩

theorem witness_FatalEntryHaltsAndLatches_ret :
    (depth 0 0x00EE).status = .running ∧ decodeWord (fetchWord (depth 0 0x00EE)) = .ok .ret ∧
    (depth 0 0x00EE).sp.val = 0 := by decide

theorem witness_FatalEntryHaltsAndLatches_call :
    (depth 16 0x2400).status = .running ∧ decodeWord (fetchWord (depth 16 0x2400)) = .ok (.call 0x400) ∧
    (depth 16 0x2400).sp.val = 16 := by decide

theorem witness_OnlyCallAndReturnRaise :
    (∃ t, exec .ret (depth 0 0) = .next t ∧ t.status = .halted) ∧
    (∃ t, exec (.call 0x400) (depth 16 0) = .next t ∧ t.status = .halted) ∧
    (∃ t, exec (.call 0x400) (depth 15 0) = .next t ∧ t.status = .running) := ⟨⟨_, rfl, rfl⟩, ⟨_, rfl, rfl⟩, ⟨_, rfl, rfl⟩⟩

theorem witness_HaltedBlockIgnoresStep : { State.reset with status := .halted }.halted := rfl

theorem witness_OnlyResetLeavesTheHaltedState :
    { State.reset with status := .halted, schedule := [.tick] }.halted ∧
    (∀ font program, nextTransaction { State.reset with status := .halted, schedule := [.tick] }
      ≠ .reset font program) ∧
    ∃ t, step { State.reset with status := .halted, schedule := [.tick] } = .next t :=
  ⟨rfl, by simp [nextTransaction], _, rfl⟩

theorem witness_ResetConstructsTheState_empty : ([] : List Byte).length ≤ 3584 := by simp

theorem witness_ResetConstructsTheState_full : (List.replicate 3584 (0 : Byte)).length ≤ 3584 := by
  rw [List.length_replicate]

theorem witness_OversizedProgramIsRefused : 3584 < (List.replicate 3585 (0 : Byte)).length := by
  rw [List.length_replicate]; decide

/-- The clauses at the two ends of the stack. -/
theorem witness_ReturnPopsTheStack :
    (depth 1 0).sp.val = 0 + 1 ∧ (depth 16 0).sp.val = 15 + 1 ∧ (depth 0 0).sp.val = 0 := by decide

theorem witness_CallPushesTheReturnAddress :
    (depth 0 0).sp.val < 16 ∧ (depth 15 0).sp.val < 16 ∧ (depth 16 0).sp.val = 16 := by decide

theorem witness_ReturnAfterCallRestoresPc :
    (depth 15 0).sp.val < 16 ∧ ∃ t, exec (.call 0x400) (depth 15 0) = .next t ∧
      ∃ u : State, u.stack = t.stack ∧ u.sp = t.sp := ⟨by decide, _, rfl, _, rfl, rfl⟩

theorem witness_JumpWithOffsetAddsV0 : (Instr.jpV0 0xFFF).WellFormed := by decide

theorem witness_RandomByteIsMasked :
    (holding 0xC10F).status = .running ∧ decodeWord (fetchWord (holding 0xC10F)) = .ok (.rnd 1 0x0F) := by decide

/-- VF is outside what `LD Vx, kk` may write and inside what `ADD Vx, Vy` may. -/
theorem witness_RegistersChangeOnlyAsDestinations :
    (∃ t, exec (.addReg 1 2) State.reset = .next t) ∧ mayWriteReg (.addReg 1 2) 3 = false ∧
    mayWriteReg (.addReg 1 2) vf = true ∧ mayWriteReg (.loadRegs 4) 4 = true ∧ mayWriteReg (.loadRegs 4) 5 = false :=
  ⟨⟨_, rfl⟩, rfl, rfl, rfl, rfl⟩

/-- A register at each side of the inclusive bound. -/
theorem witness_BlockLoadReadsRegisters : (3 : Reg).val ≤ (3 : Reg).val ∧ (3 : Reg).val < (4 : Reg).val := by decide

/-- An address outside the three bytes of a BCD store, and outside the sixteen bytes at `I`. -/
theorem witness_stores_leave_addresses :
    (∀ k < 3, 0x303 % 4096 ≠ State.operandAddr { State.reset with i := 0x300 } k % 4096) ∧
    (∀ k < 16, 0x310 % 4096 ≠ (({ State.reset with i := 0x300 } : State).i.toNat + k) % 4096) := by decide

theorem witness_DataAddressesWrapModulo4096 :
    (0x1300 : Word).toNat % 4096 = ({ State.reset with i := 0x300 } : State).i.toNat % 4096 ∧
    ∃ t, exec (.ldImm 1 2) { State.reset with i := 0x300 } = .next t := ⟨by decide, _, rfl⟩

theorem witness_DrawXorsTheSpriteAndReportsCollision :
    (Instr.drw 1 2 0).WellFormed ∧ (Instr.drw 15 15 15).WellFormed := by decide

theorem witness_DrawingTwiceRestoresTheDisplay :
    (Instr.drw 1 2 15).WellFormed ∧ (1 : Reg) ≠ vf ∧ (2 : Reg) ≠ vf ∧
    ∃ t, exec (.drw 1 2 15) State.reset = .next t := ⟨by decide, by decide, by decide, _, rfl⟩

/-- The lowest held key at the two ends of the latch, and no key. -/
theorem witness_KeyWaitLoadsTheLowestHeldKey :
    ((0x8001 : Keys).getLsbD 0 = true ∧ ∀ j < 0, (0x8001 : Keys).getLsbD j = false) ∧
    ((0x8000 : Keys).getLsbD 15 = true ∧ ∀ j < 15, (0x8000 : Keys).getLsbD j = false) ∧
    (∀ k < 16, State.reset.keys.getLsbD k = false) := by decide

theorem witness_KeyWaitHoldsUntilAKeyIsHeld : (holding 0xF30A).waitingForKey ∧ (0x0208 : Keys) ≠ 0 :=
  ⟨⟨by decide, ⟨3, by decide⟩, by decide⟩, by decide⟩

theorem witness_SelfJumpIsFinal : (holding 0x1200).selfJump := ⟨by decide, by decide⟩

theorem witness_StepKeepsTheInvariant :
    { State.reset with schedule := [.step 7] }.Inv ∧ ∃ t, step { State.reset with schedule := [.step 7] } = .next t :=
  ⟨⟨by decide, rfl, rfl, rfl⟩, { State.reset with pc := 0x202, rand := 7, result := some .nopUnknown }, rfl⟩

/-- A halted state that meets the invariant. -/
theorem witness_StepKeepsTheInvariant_halted :
    { depth 0 0 with status := .halted, faultCause := .stackUnderflow, faultPc := 0x1FE, faultWord := 0x00EE }.Inv :=
  ⟨by decide, rfl, rfl, rfl, rfl⟩

end Sys2Proof.Tests
end

section
/-!
PROOFS. Control flow (40_control_flow.md): the instructions whose only effect is a new program counter.
-/

namespace Sys2Proof.Machine

open Sys2Proof.Claims

/-- The rule for jumps and skips: an instruction that completes with `setPc` writes PC and has the frame of `WritesPc`. -/
theorem writesPc_of_exec_eq_setPc {i : Instr} {s : State} {w : Word}
    (h : exec i s = .next ((s.setPc w).setResult .executed)) : WritesPc i s w.toNat := by
  have frame : { (s.setPc w).setResult .executed with pc := s.pc, result := s.result } = s := rfl
  exact ⟨_, h, by simp, by simp, frame, State.setResult_result _ _⟩

/-- Settles O24: `exec_jp` gives the completed state, and the rule for `setPc` gives its PC and frame. -/
theorem jumpSetsPc : Obligations.JumpSetsPc :=
  fun nnn s => writesPc_of_exec_eq_setPc (exec_jp s nnn)

end Sys2Proof.Machine
end

section
/-!
PROOFS. Register loads and the ALU (41_load_and_alu.md): what a register write and a result-and-flag write leave, the
values of the flags as numbers, and the byte that only `RND` reads.
-/

namespace Sys2Proof.Machine

open Sys2Proof.Claims

/-- The rule for the instructions without a flag: one that completes with `setReg` writes its register and has the frame
of `WritesRegister`. -/
theorem writesRegister_of_exec_eq_setReg {i : Instr} {s : State} {x : Reg} {b : Byte}
    (h : exec i s = .next ((s.setReg x b).setResult .executed)) : WritesRegister i s x b.toNat := by
  have frame : { (s.setReg x b).setResult .executed with v := s.v, result := s.result } = s := rfl
  exact ⟨_, h, by simp, fun _ hr => s.reg_setReg_of_ne b hr, fun _ => rfl, frame, rfl⟩

/-- The rule for the instructions with a flag (R11, R113): one that completes with `setResultFlag` leaves the flag in VF,
its result in any other destination, and has the frame of `WritesRegisterAndFlag`. -/
theorem writesRegisterAndFlag_of_exec_eq_setResultFlag {i : Instr} {s : State} {x : Reg} {b f : Byte}
    (h : exec i s = .next ((s.setResultFlag x b f).setResult .executed)) :
    WritesRegisterAndFlag i s x b.toNat f.toNat := by
  have frame : { (s.setResultFlag x b f).setResult .executed with v := s.v, result := s.result } = s := rfl
  exact ⟨_, h, by simp, fun hx => by simp [s.reg_setResultFlag_dest b f hx],
    fun _ hx hf => s.reg_setResultFlag_other b f hx hf, fun _ => rfl, frame, rfl⟩

/-! ## The flags as numbers -/

theorem flagByte_toNat (c : Bool) : (flagByte c).toNat = c.toNat := by cases c <;> rfl

theorem carryFlag_toNat (a b : Byte) : (carryFlag a b).toNat = if a.toNat + b.toNat > 255 then 1 else 0 := by
  rw [carryFlag, flagByte_toNat, Bool.toNat, Bool.cond_decide]

theorem notBorrowFlag_toNat (a b : Byte) : (notBorrowFlag a b).toNat = if a.toNat ≥ b.toNat then 1 else 0 := by
  rw [notBorrowFlag, flagByte_toNat, Bool.toNat, Bool.cond_decide]

theorem lowBitFlag_toNat (a : Byte) : (lowBitFlag a).toNat = a.toNat % 2 := by
  rw [lowBitFlag, flagByte_toNat, BitVec.getLsbD, Nat.toNat_testBit]
  simp

theorem highBitFlag_toNat (a : Byte) : (highBitFlag a).toNat = a.toNat / 128 := by
  have := a.isLt
  rw [highBitFlag, flagByte_toNat, BitVec.getLsbD, Nat.toNat_testBit]
  omega

/-! ## The results as numbers -/

/-- The modulus as the spec writes it (R101, R106). -/
theorem toNat_add_byte (a b : Byte) : (a + b).toNat = (a.toNat + b.toNat) % 256 := BitVec.toNat_add a b

theorem toNat_sub_byte (a b : Byte) : (a - b).toNat = (a.toNat + 256 - b.toNat) % 256 := by
  have := b.isLt
  rw [BitVec.toNat_sub]
  omega

theorem toNat_shiftRight_one (a : Byte) : (a >>> 1).toNat = a.toNat / 2 := by
  rw [BitVec.toNat_ushiftRight, Nat.shiftRight_eq_div_pow, Nat.pow_one]

theorem toNat_shiftLeft_one (a : Byte) : (a <<< 1).toNat = a.toNat * 2 % 256 := by
  rw [BitVec.toNat_shiftLeft, Nat.shiftLeft_eq, Nat.pow_one]

/-! ## The obligations -/

/-- Settles O34: the carry flag compares the unreduced sum with 255. -/
theorem addRegistersSetsCarry : Obligations.AddRegistersSetsCarry := by
  intro x y s
  rw [← toNat_add_byte, ← carryFlag_toNat]
  exact writesRegisterAndFlag_of_exec_eq_setResultFlag (exec_addReg s x y)

/-- Settles O35: SUBN is SUB with the operands exchanged, and the same two value lemmas serve both. -/
theorem subtractionsSetNotBorrow : Obligations.SubtractionsSetNotBorrow := by
  intro x y s
  rw [← notBorrowFlag_toNat, ← notBorrowFlag_toNat, ← toNat_sub_byte, ← toNat_sub_byte]
  exact ⟨writesRegisterAndFlag_of_exec_eq_setResultFlag (exec_sub s x y),
    writesRegisterAndFlag_of_exec_eq_setResultFlag (exec_subn s x y)⟩

/-- Settles O36: the bit shifted out is the remainder by 2, or the quotient by 128. -/
theorem shiftsMoveOneBitIntoFlag : Obligations.ShiftsMoveOneBitIntoFlag := by
  intro x y s
  rw [← toNat_shiftRight_one, ← lowBitFlag_toNat, ← toNat_shiftLeft_one, ← highBitFlag_toNat]
  exact ⟨writesRegisterAndFlag_of_exec_eq_setResultFlag (exec_shr s x y),
    writesRegisterAndFlag_of_exec_eq_setResultFlag (exec_shl s x y)⟩

/-- `RND` writes the presented byte masked (R111). -/
theorem exec_rnd_writesRegister (x : Reg) (kk : Byte) (s : State) :
    WritesRegister (.rnd x kk) s x (s.rand.toNat &&& kk.toNat) := by
  rw [← BitVec.toNat_and]
  exact writesRegister_of_exec_eq_setReg (exec_rnd s x kk)

/-- A STEP of a running block executes the word at PC with the STEP's byte presented (R66, R111). -/
theorem perform_step_known {s : State} {i : Instr} (r : Byte) (h : s.status = .running)
    (hd : decodeWord (fetchWord s) = .ok i) : perform (.step r) s = exec i (advance { s with rand := r }) :=
  performStep_known (s := { s with rand := r }) h hd

/-- `LD Vx, K` with no key held (R153). -/
theorem execLdVxK_wait {x : Reg} {s : State} (h : lowestKey s.keys = none) :
    execLdVxK x s = .next ((s.setPc s.pc0).setResult .waitingKey) := by
  simp only [execLdVxK, h]

/-- `LD Vx, K` with a key held (R153). -/
theorem execLdVxK_load {x : Reg} {s : State} {k : Nat} (h : lowestKey s.keys = some k) :
    execLdVxK x s = done (s.setReg x (BitVec.ofNat 8 k)) := by
  simp only [execLdVxK, h]

/-- Every instruction but `RND` passes the presented byte through and otherwise answers the same (R111): each outcome of
`exec` is a state that the other fields of `s` determine. -/
theorem exec_with_rand {i : Instr} {s t : State} (r : Byte) (hi : ∀ x kk, i ≠ .rnd x kk) (h : exec i s = .next t) :
    exec i { s with rand := r } = .next { t with rand := r } := by
  cases i
  case rnd x kk => exact absurd rfl (hi x kk)
  case ret =>
    rcases execRet_cases h with ⟨d, _, hsp, rfl⟩ | ⟨hsp, hf⟩
    · exact execRet_pop (s := { s with rand := r }) hsp
    · obtain rfl := fatal_eq_next.mp hf
      exact execRet_empty (s := { s with rand := r }) hsp
  case call nnn =>
    rcases execCall_cases h with ⟨hsp, rfl⟩ | ⟨hsp, hf⟩
    · exact execCall_push (s := { s with rand := r }) nnn hsp
    · obtain rfl := fatal_eq_next.mp hf
      exact execCall_full (s := { s with rand := r }) nnn hsp
  case ldVxK x =>
    rcases execLdVxK_cases h with ⟨hk, rfl⟩ | ⟨k, hk, rfl⟩
    · exact execLdVxK_wait (s := { s with rand := r }) hk
    · exact execLdVxK_load (s := { s with rand := r }) hk
  case seImm | sneImm | seReg | sneReg | skp | sknp =>
    obtain rfl := skipIf_eq_next.mp h
    exact skipIf_eq_next.mpr rfl
  all_goals
    obtain rfl := done_eq_next.mp h
    rfl

/-- Settles O37: the masked write, its use in a STEP, and the byte passing through every other instruction. -/
theorem randomByteIsMasked : Obligations.RandomByteIsMasked := by
  refine ⟨exec_rnd_writesRegister, fun x kk r s hs hd => ?_, fun _ r _ _ hi h => exec_with_rand r hi h⟩
  obtain ⟨t, ht, hx, -⟩ := exec_rnd_writesRegister x kk (advance { s with rand := r })
  exact ⟨t, (perform_step_known r hs hd).trans ht, hx⟩

/-- Settles O31: each of the three completes with one register write. -/
theorem loadsCopyIntoTheirRegister : Obligations.LoadsCopyIntoTheirRegister :=
  fun x y kk s =>
    ⟨writesRegister_of_exec_eq_setReg (exec_ldImm s x kk), writesRegister_of_exec_eq_setReg (exec_ldReg s x y),
      writesRegister_of_exec_eq_setReg (exec_ldVxDt s x)⟩

/-- Settles O32: the 8-bit sum as a number is the sum modulo 256. -/
theorem addImmediateWrapsWithoutFlag : Obligations.AddImmediateWrapsWithoutFlag := by
  intro x kk s
  rw [← toNat_add_byte]
  exact writesRegister_of_exec_eq_setReg (exec_addImm s x kk)

/-- Settles O33: each of the three completes with one register write. -/
theorem logicOperationsWriteNoFlag : Obligations.LogicOperationsWriteNoFlag := by
  intro x y s
  rw [← BitVec.toNat_or, ← BitVec.toNat_and, ← BitVec.toNat_xor]
  exact ⟨writesRegister_of_exec_eq_setReg (exec_orReg s x y), writesRegister_of_exec_eq_setReg (exec_andReg s x y),
    writesRegister_of_exec_eq_setReg (exec_xorReg s x y)⟩

end Sys2Proof.Machine
end

section
/-!
PROOFS. Index and memory (42_index_and_memory.md): the instructions whose only effect is a new index register.
-/

namespace Sys2Proof.Machine

open Sys2Proof.Claims

/-- The rule for index loads and index arithmetic: an instruction that completes with `setI` writes I and has the frame of
`WritesIndex`. -/
theorem writesIndex_of_exec_eq_setI {i : Instr} {s : State} {w : Word}
    (h : exec i s = .next ((s.setI w).setResult .executed)) : WritesIndex i s w.toNat := by
  have frame : { (s.setI w).setResult .executed with i := s.i, result := s.result } = s := rfl
  exact ⟨_, h, by simp, by simp, frame, State.setResult_result _ _⟩

/-- Settles O39: `exec_ldI` gives the completed state, and the rule for `setI` gives its index register and frame. -/
theorem loadIndexSetsI : Obligations.LoadIndexSetsI :=
  fun nnn s => writesIndex_of_exec_eq_setI (exec_ldI s nnn)

end Sys2Proof.Machine
end

section
/-!
PROOFS. Display (43_display.md): clearing the display.
-/

namespace Sys2Proof.Machine

/-- Settles O47: `exec_cls` gives the completed state; its display is the blank one, which has no lit pixel, and the
other fields are those of `s`. -/
theorem clearDisplayClearsEveryPixel : Obligations.ClearDisplayClearsEveryPixel := by
  intro s
  refine ⟨_, exec_cls s, fun col row => ?pixels, fun a => ?memory, ?frame, State.setResult_result _ _⟩
  case pixels => exact pixelAt_blankDisplay col row
  case memory => rw [State.setResult_mem]
  case frame => rfl

end Sys2Proof.Machine
end

section
/-!
PROOFS. Keys and timers (44_keys_and_timers.md): which key the latch reports, the two outcomes of the key wait, and the
timer loads.
-/

namespace Sys2Proof.Machine

open Sys2Proof.Claims

/-! ## The lowest held key -/

/-- The converse of `lowestKey_some`: a held key with none held below it is the one reported (R153). -/
theorem lowestKey_eq_some {keys : Keys} {k : Nat} (hk : k < 16) (held : keys.getLsbD k = true)
    (below : ∀ j < k, keys.getLsbD j = false) : lowestKey keys = some k := by
  rw [lowestKey, List.find?_range_eq_some]
  exact ⟨held, List.mem_range.mpr hk, fun j hj => by rw [below j hj]; rfl⟩

/-- No key is reported when none of the sixteen is held (R153). -/
theorem lowestKey_eq_none {keys : Keys} (unheld : ∀ k < 16, keys.getLsbD k = false) : lowestKey keys = none :=
  lowestKey_none.mpr (BitVec.eq_of_getLsbD_eq fun k hk => by simpa using unheld k hk)

/-- A key index fits in a register. -/
theorem keyIndex_toNat {k : Nat} (hk : k < 16) : (BitVec.ofNat 8 k).toNat = k := by
  rw [BitVec.toNat_ofNat]
  omega

/-! ## The obligations -/

/-- Settles O51: a held key makes the instruction one register write, and with none held the state is `s` with PC taken
back to `pc0`. -/
theorem keyWaitLoadsTheLowestHeldKey : Obligations.KeyWaitLoadsTheLowestHeldKey := by
  refine fun x s => ⟨fun k hk held below => ?load, fun unheld => ?wait⟩
  case load =>
    have load := writesRegister_of_exec_eq_setReg (i := .ldVxK x) (execLdVxK_load (lowestKey_eq_some hk held below))
    rwa [keyIndex_toNat hk] at load
  case wait =>
    have frame : { (s.setPc s.pc0).setResult .waitingKey with pc := s.pc, result := s.result } = s := rfl
    exact ⟨_, execLdVxK_wait (lowestKey_eq_none unheld), by simp, State.setResult_result _ _, frame⟩

/-- Settles O53: `exec_ldDtVx` and `exec_ldStVx` give the completed states, which differ from `s` in one timer and the
result code. -/
theorem timerLoadsCopyTheRegister : Obligations.TimerLoadsCopyTheRegister :=
  fun x s =>
    ⟨⟨_, exec_ldDtVx s x, by simp, by simp, rfl, State.setResult_result _ _⟩,
      ⟨_, exec_ldStVx s x, by simp, by simp, rfl, State.setResult_result _ _⟩⟩

end Sys2Proof.Machine
end

section
/-!
PROOFS. Exceptions (60_exceptions.md): the timer tick and the key latch update, neither of which reads the status.
-/

namespace Sys2Proof.Machine

/-- TICK as a transaction, for a state of any status (R180). -/
theorem perform_tick (s : State) : perform .tick s = .next (performTick s) := rfl

/-- SETKEYS as a transaction, for a state of any status (R183). -/
theorem perform_setKeys (k : Keys) (s : State) : perform (.setKeys k) s = .next (performSetKeys k s) := rfl

/-- Settles O19: the next state holds each timer counted down, `countDown_toNat` reads that as one less or 0, and the
other fields are those of `s`. -/
theorem tickCountsBothTimersDown : Obligations.TickCountsBothTimersDown := by
  refine fun s => ⟨_, perform_tick s, ?delay, ?sound, ?frame⟩
  case delay => rw [performTick_dt, countDown_toNat]
  case sound => rw [performTick_st, countDown_toNat]
  case frame => rfl

/-- Settles O20: the next state holds `k` as its latch, so every flag agrees, and the other fields are those of `s`. -/
theorem setKeysReplacesTheLatch : Obligations.SetKeysReplacesTheLatch := by
  refine fun k s => ⟨_, perform_setKeys k s, fun j _ => ?flag, ?frame⟩
  case flag => rw [performSetKeys_keys]
  case frame => rfl

end Sys2Proof.Machine
end

section
/-!
PROOFS. Decoding (30_encoding.md): the decoder and the encoder are inverse, the rows of the opcode map and the six
classes of unknown words.
-/

namespace Sys2Proof

open Sys2Proof.Claims

/-! ## The decoder, class by class -/

/-- A nibble is one of sixteen (R61): the case split of the decoder. -/
theorem nibble_cases (op : BitVec 4) :
    op = 0 ∨ op = 1 ∨ op = 2 ∨ op = 3 ∨ op = 4 ∨ op = 5 ∨ op = 6 ∨ op = 7 ∨ op = 8 ∨ op = 9 ∨ op = 10 ∨ op = 11 ∨
      op = 12 ∨ op = 13 ∨ op = 14 ∨ op = 15 := by
  revert op
  decide

/-- The decoder reads back every word of a well-formed instruction: each field of the word is the operand (R61, R64). -/
theorem decodeWord_encode {i : Instr} (hi : i.WellFormed) : decodeWord (encode i) = .ok i := by
  cases i
  case cls | ret => rfl
  case jp nnn | call nnn | ldI nnn | jpV0 nnn =>
    have hn : nnn.toNat < 0x1000 := of_decide_eq_true hi
    simp [encode, decodeWord, hn]
  case drw x y n =>
    have hn : n < 16 := of_decide_eq_true hi
    simp [encode, decodeWord, Nat.mod_eq_of_lt hn]
  case seImm | sneImm | ldImm | addImm | rnd => simp [encode, decodeWord]
  case seReg | sneReg => simp [encode, decodeWord]
  case ldReg | orReg | andReg | xorReg | addReg | sub | shr | subn | shl => simp [encode, decodeWord, decodeAlu]
  case skp | sknp => simp [encode, decodeWord, decodeKey]
  case ldVxDt | ldVxK | ldDtVx | ldStVx | addI | ldF | ldB | storeRegs | loadRegs =>
    simp [encode, decodeWord, decodeMisc]

/-! ## The word of a decoded instruction -/

section
variable {w : Word} {op : BitVec 4} (hop : fieldOp w = op)
include hop

theorem formatA_of_fields : formatA op (fieldNNN w) = w := by
  subst hop
  exact formatA_fields w

theorem formatI_of_fields {kk : Byte} (hkk : fieldKK w = kk) : formatI op (fieldX w) kk = w := by
  subst hop hkk
  exact formatI_fields w

theorem formatR_of_fields {n : BitVec 4} (hn : fieldN w = n) : formatR op (fieldX w) (fieldY w) n = w := by
  subst hop hn
  exact formatR_fields w

end

theorem encode_of_decodeZero {w : Word} {i : Instr} (h : decodeZero w = .ok i) : i.WellFormed ∧ encode i = w := by
  unfold decodeZero at h
  split at h
  · next hw => cases h; exact ⟨rfl, hw.symm⟩
  split at h
  · next hw => cases h; exact ⟨rfl, hw.symm⟩
  · cases h

theorem encode_of_decodeAlu {w : Word} {i : Instr} (hop : fieldOp w = 8) (h : decodeAlu w = .ok i) :
    i.WellFormed ∧ encode i = w := by
  unfold decodeAlu at h
  split at h <;> cases h
  all_goals exact ⟨rfl, formatR_of_fields hop ‹_›⟩

theorem encode_of_decodeKey {w : Word} {i : Instr} (hop : fieldOp w = 14) (h : decodeKey w = .ok i) :
    i.WellFormed ∧ encode i = w := by
  unfold decodeKey at h
  split at h <;> cases h
  all_goals exact ⟨rfl, formatI_of_fields hop ‹_›⟩

theorem encode_of_decodeMisc {w : Word} {i : Instr} (hop : fieldOp w = 15) (h : decodeMisc w = .ok i) :
    i.WellFormed ∧ encode i = w := by
  unfold decodeMisc at h
  split at h <;> cases h
  all_goals exact ⟨rfl, formatI_of_fields hop ‹_›⟩

/-- No bit of an accepted word is dropped (R64, R69): per top nibble, the fields the decoder reads make up the word. Arm
`h_k` of `decodeWord` is top nibble `k - 1`. -/
theorem encode_of_decodeWord {w : Word} {i : Instr} (h : decodeWord w = .ok i) : i.WellFormed ∧ encode i = w := by
  have address : addressFits (fieldNNN w) = true := decide_eq_true (fieldNNN_lt w)
  have count : rowCountFits (fieldN w).toNat = true := decide_eq_true (fieldN w).isLt
  unfold decodeWord at h
  split at h
  case h_1 hop => exact encode_of_decodeZero h
  case h_9 hop => exact encode_of_decodeAlu hop h
  case h_15 hop => exact encode_of_decodeKey hop h
  case h_16 =>
    have hop : fieldOp w = 15 := by
      have := nibble_cases (fieldOp w)
      tauto
    exact encode_of_decodeMisc hop h
  case h_6 hop | h_10 hop =>
    split at h <;> cases h
    exact ⟨rfl, formatR_of_fields hop ‹_›⟩
  case h_14 hop =>
    cases h
    exact ⟨count, by simpa [encode] using formatR_of_fields hop rfl⟩
  case h_2 hop | h_3 hop | h_11 hop | h_12 hop => cases h; exact ⟨address, formatA_of_fields hop⟩
  all_goals cases h; exact ⟨rfl, formatI_of_fields ‹_› rfl⟩

/-! ## The rows of the opcode map -/

/-- The word of an instruction selects the instruction's row (R64). -/
theorem encode_selects_row (i : Instr) : encode i &&& (opcodeRow i).1 = (opcodeRow i).2 := by
  cases i
  case cls | ret => rfl
  case jp | call | ldI | jpV0 => exact formatA_and _ _
  case seImm | sneImm | ldImm | addImm | rnd => exact formatI_and_op _ _ _
  case drw => exact formatR_and_op _ _ _ _
  case skp | sknp | ldVxDt | ldVxK | ldDtVx | ldStVx | addI | ldF | ldB | storeRegs | loadRegs =>
    exact formatI_and_byte _ _ _
  all_goals exact formatR_and_low _ _ _ _

/-- One instruction per row of the opcode map, in the map's order. -/
def rowSamples : List Instr :=
  [.cls, .ret, .jp 0, .call 0, .seImm 0 0, .sneImm 0 0, .seReg 0 0, .ldImm 0 0, .addImm 0 0, .ldReg 0 0, .orReg 0 0,
    .andReg 0 0, .xorReg 0 0, .addReg 0 0, .sub 0 0, .shr 0 0, .subn 0 0, .shl 0 0, .sneReg 0 0, .ldI 0, .jpV0 0,
    .rnd 0 0, .drw 0 0 0, .skp 0, .sknp 0, .ldVxDt 0, .ldVxK 0, .ldDtVx 0, .ldStVx 0, .addI 0, .ldF 0, .ldB 0,
    .storeRegs 0, .loadRegs 0]

/-- The rows are those of the instructions: the two spellings of the table agree. -/
theorem opcodeRows_eq_map : opcodeRows = rowSamples.map opcodeRow := rfl

theorem opcodeRow_mem (i : Instr) : opcodeRow i ∈ opcodeRows := by
  cases i <;> simp [opcodeRow, opcodeRows]

/-- Words that agree under a mask agree in the fields the mask keeps (R62, R65). -/
theorem fieldOp_eq_of_and {w u : Word} (h : w &&& 0xF000 = u &&& 0xF000) : fieldOp w = fieldOp u :=
  (and_op_iff w _).mp (h.trans ((and_op_iff u _).mpr rfl))

theorem fields_eq_of_and_low {w u : Word} (h : w &&& 0xF00F = u &&& 0xF00F) :
    fieldOp w = fieldOp u ∧ fieldN w = fieldN u :=
  (and_low_iff w _ _).mp (h.trans ((and_low_iff u _ _).mpr ⟨rfl, rfl⟩))

theorem fields_eq_of_and_byte {w u : Word} (h : w &&& 0xF0FF = u &&& 0xF0FF) :
    fieldOp w = fieldOp u ∧ fieldKK w = fieldKK u :=
  (and_byte_iff w _ _).mp (h.trans ((and_byte_iff u _ _).mpr ⟨rfl, rfl⟩))

/-- A word that selects the row of `i` decodes to an instruction of that row: it has the fixed fields of the word of `i`
(R65). -/
theorem map_opcodeRow_decodeWord {w : Word} (i : Instr) (h : w &&& (opcodeRow i).1 = (opcodeRow i).2) :
    (decodeWord w).map opcodeRow = .ok (opcodeRow i) := by
  have agree := h.trans (encode_selects_row i).symm
  cases i
  case cls | ret =>
    have hw : w = _ := (BitVec.and_allOnes (x := w)).symm.trans h
    exact hw ▸ rfl
  case jp | call | seImm | sneImm | ldImm | addImm | ldI | jpV0 | rnd | drw =>
    have hop := fieldOp_eq_of_and agree
    simp only [encode, fieldOp_formatA, fieldOp_formatI, fieldOp_formatR] at hop
    simp only [decodeWord, hop]
    rfl
  case skp | sknp | ldVxDt | ldVxK | ldDtVx | ldStVx | addI | ldF | ldB | storeRegs | loadRegs =>
    obtain ⟨hop, hkk⟩ := fields_eq_of_and_byte agree
    simp only [encode, fieldOp_formatI, fieldKK_formatI] at hop hkk
    simp only [decodeWord, decodeKey, decodeMisc, hop, hkk]
    rfl
  all_goals
    obtain ⟨hop, hn⟩ := fields_eq_of_and_low agree
    simp only [encode, fieldOp_formatR, fieldN_formatR] at hop hn
    simp only [decodeWord, decodeAlu, hop, hn]
    rfl

/-- A word that satisfies a row of the table decodes to an instruction of that row and no other (R65). -/
theorem decodeWord_of_row {w : Word} {row : Word × Word} (hrow : row ∈ opcodeRows) (h : w &&& row.1 = row.2) :
    ∃ i, decodeWord w = .ok i ∧ opcodeRow i = row := by
  rw [opcodeRows_eq_map] at hrow
  obtain ⟨i, -, rfl⟩ := List.mem_map.mp hrow
  have hmap := map_opcodeRow_decodeWord i h
  cases hd : decodeWord w with
  | ok j => exact ⟨j, rfl, by simpa [hd, Except.map] using hmap⟩
  | error e => simp [hd, Except.map] at hmap

/-- A decoded word satisfies the row of its instruction. -/
theorem decodeWord_selects_row {w : Word} {i : Instr} (h : decodeWord w = .ok i) :
    w &&& (opcodeRow i).1 = (opcodeRow i).2 := by
  obtain ⟨-, rfl⟩ := encode_of_decodeWord h
  exact encode_selects_row i

/-- The rows that a decoded word satisfies: the one of its instruction (R65). -/
theorem filter_opcodeRows_of_ok {w : Word} {i : Instr} (h : decodeWord w = .ok i) :
    (opcodeRows.filter fun row => w &&& row.1 = row.2) = [opcodeRow i] := by
  have hrow : ∀ row ∈ opcodeRows, decide (w &&& row.1 = row.2) = (row == opcodeRow i) := by
    intro row hrow
    rw [Bool.eq_iff_iff, decide_eq_true_eq, beq_iff_eq]
    constructor
    · intro hs
      obtain ⟨j, hj, rfl⟩ := decodeWord_of_row hrow hs
      rw [Except.ok.inj (hj.symm.trans h)]
    · rintro rfl
      exact decodeWord_selects_row h
  have once : opcodeRows.count (opcodeRow i) = 1 :=
    List.count_eq_one_of_mem (by decide) (opcodeRow_mem i)
  rw [List.filter_congr hrow, List.filter_beq, once, List.replicate_one]

/-- A refused word satisfies no row (R65). -/
theorem not_selects_of_error {w : Word} {e : DecodeError} (h : decodeWord w = .error e) :
    ∀ row ∈ opcodeRows, w &&& row.1 ≠ row.2 := by
  intro row hrow hs
  obtain ⟨i, hi, -⟩ := decodeWord_of_row hrow hs
  cases hi.symm.trans h

/-! ## The classes of unknown words -/

/-- The words each decode error stands for (R68). -/
def InErrorClass (w : Word) : DecodeError → Prop
  | .zeroGroup => w.toNat / 4096 = 0 ∧ w.toNat ≠ 0x00E0 ∧ w.toNat ≠ 0x00EE
  | .skipEqualGroup => w.toNat / 4096 = 5 ∧ w.toNat % 16 ≠ 0
  | .aluGroup => w.toNat / 4096 = 8 ∧ 8 ≤ w.toNat % 16 ∧ w.toNat % 16 ≠ 14
  | .skipNotEqualGroup => w.toNat / 4096 = 9 ∧ w.toNat % 16 ≠ 0
  | .keyGroup => w.toNat / 4096 = 14 ∧ w.toNat % 256 ≠ 0x9E ∧ w.toNat % 256 ≠ 0xA1
  | .miscGroup =>
    w.toNat / 4096 = 15 ∧ w.toNat % 256 ∉ [0x07, 0x0A, 0x15, 0x18, 0x1E, 0x29, 0x33, 0x55, 0x65]
  | .truncated => False

theorem decodeZero_error_iff (w : Word) (e : DecodeError) :
    decodeZero w = .error e ↔ e = .zeroGroup ∧ w.toNat ≠ 0x00E0 ∧ w.toNat ≠ 0x00EE := by
  unfold decodeZero
  split
  · next hw => simp [hw]
  split
  · next hw => simp [hw]
  · next h0 h1 =>
    have hcls : w.toNat ≠ 0x00E0 := fun h => h0 (BitVec.eq_of_toNat_eq h)
    have hret : w.toNat ≠ 0x00EE := fun h => h1 (BitVec.eq_of_toNat_eq h)
    simp [hcls, hret, eq_comm]

theorem decodeAlu_error_iff (w : Word) (e : DecodeError) :
    decodeAlu w = .error e ↔ e = .aluGroup ∧ 8 ≤ w.toNat % 16 ∧ w.toNat % 16 ≠ 14 := by
  rw [← fieldN_toNat]
  rcases nibble_cases (fieldN w) with hn | hn | hn | hn | hn | hn | hn | hn | hn | hn | hn | hn | hn | hn | hn | hn <;>
    simp [decodeAlu, hn, eq_comm]

theorem decodeKey_error_iff (w : Word) (e : DecodeError) :
    decodeKey w = .error e ↔ e = .keyGroup ∧ w.toNat % 256 ≠ 0x9E ∧ w.toNat % 256 ≠ 0xA1 := by
  rw [← fieldKK_toNat]
  unfold decodeKey
  split
  all_goals simp_all [eq_comm, ← BitVec.toNat_inj]

theorem decodeMisc_error_iff (w : Word) (e : DecodeError) :
    decodeMisc w = .error e
      ↔ e = .miscGroup ∧ w.toNat % 256 ∉ [0x07, 0x0A, 0x15, 0x18, 0x1E, 0x29, 0x33, 0x55, 0x65] := by
  rw [← fieldKK_toNat]
  unfold decodeMisc
  split
  all_goals simp_all [eq_comm, ← BitVec.toNat_inj]

/-- Each error is answered exactly for the words of its class (R68): per top nibble, the decoder of that group. Arm
`h_k` of `decodeWord` is top nibble `k - 1`, the groups with unknown words being 0, 5, 8, 9, E and F. -/
theorem decodeWord_error_iff (w : Word) (e : DecodeError) : decodeWord w = .error e ↔ InErrorClass w e := by
  have top := fieldOp_toNat w
  have low := fieldN_toNat w
  unfold decodeWord
  split <;> rename_i hop
  case h_1 | h_9 | h_15 =>
    rw [hop] at top
    simp only [decodeZero_error_iff, decodeAlu_error_iff, decodeKey_error_iff]
    cases e <;> simp [InErrorClass, ← top]
  case h_16 =>
    have hop : fieldOp w = 15 := by
      have := nibble_cases (fieldOp w)
      tauto
    rw [hop] at top
    rw [decodeMisc_error_iff]
    cases e <;> simp [InErrorClass, ← top]
  case h_6 | h_10 =>
    rw [hop] at top
    split
    case isTrue hn =>
      rw [hn] at low
      cases e <;> simp [InErrorClass, ← top, ← low]
    case isFalse hn =>
      have hlow : w.toNat % 16 ≠ 0 := fun h => hn (BitVec.eq_of_toNat_eq (low.trans h))
      cases e <;> simp [InErrorClass, ← top, hlow]
  all_goals
    rw [hop] at top
    cases e <;> simp [InErrorClass, ← top]

/-! ## The obligations -/

/-- Settles O1: per format, the fields of the encoded word are the operands (`decodeWord_encode`). -/
theorem decodeOfEncodeIsIdentity : Obligations.DecodeOfEncodeIsIdentity :=
  fun _ hi => decodeWord_encode hi

/-- Settles O2: per top nibble, the fields the decoder reads make up the word (`encode_of_decodeWord`). -/
theorem encodeOfDecodeIsIdentity : Obligations.EncodeOfDecodeIsIdentity :=
  fun _ _ h => encode_of_decodeWord h

/-- Settles O3: a decoded word satisfies the row of its instruction, and a word that satisfies a row has that row's
fixed fields, on which the decoder switches. -/
theorem decoderAcceptsExactlyTheTableRows : Obligations.DecoderAcceptsExactlyTheTableRows := by
  intro w
  constructor
  · rintro ⟨i, h⟩
    exact ⟨opcodeRow i, opcodeRow_mem i, decodeWord_selects_row h⟩
  · rintro ⟨row, hrow, h⟩
    obtain ⟨i, hi, -⟩ := decodeWord_of_row hrow h
    exact ⟨i, hi⟩

/-- Settles O4: every row a word satisfies is the row of what it decodes to, and the rows are distinct. -/
theorem tableRowsAreDisjoint : Obligations.TableRowsAreDisjoint := by
  refine fun w => ⟨fun i => filter_opcodeRows_of_ok, fun e h => ?_⟩
  rw [List.filter_eq_nil_iff]
  exact fun row hrow => by simpa using not_selects_of_error h row hrow

/-- Settles O5: the seven clauses are `decodeWord_error_iff` at the seven errors. -/
theorem unknownWordsAreTheSixClasses : Obligations.UnknownWordsAreTheSixClasses :=
  fun w =>
    ⟨decodeWord_error_iff w .zeroGroup, decodeWord_error_iff w .skipEqualGroup, decodeWord_error_iff w .aluGroup,
      decodeWord_error_iff w .skipNotEqualGroup, decodeWord_error_iff w .keyGroup, decodeWord_error_iff w .miscGroup,
      (decodeWord_error_iff w .truncated).mp⟩

/-- Settles O6: ten closed words, decoded by evaluation. -/
theorem sampleWordsDecode : Obligations.SampleWordsDecode := by
  unfold Obligations.SampleWordsDecode
  decide

end Sys2Proof
end

section
/-!
PROOFS. The invariant (10_state.md section 10, 60_exceptions.md section 1): memory in canonical form, status and fault
latches in agreement, at reset and after every transaction.
-/

namespace Sys2Proof.Machine

/-! ## The agreement of status and latches -/

/-- A running block agrees with its latches exactly when they are clear. -/
theorem State.latchesAgree_iff_of_running {s : State} (h : s.status = .running) :
    s.latchesAgree ↔ s.faultCause = .none ∧ s.faultPc = 0 ∧ s.faultWord = 0 := by
  unfold State.latchesAgree
  split <;> simp_all

/-- The agreement looks at the status, the latches, SP and PC only. -/
theorem State.latchesAgree.congr {s t : State} (hs : s.latchesAgree) (status : t.status = s.status)
    (cause : t.faultCause = s.faultCause) (pc0 : t.faultPc = s.faultPc) (word : t.faultWord = s.faultWord)
    (sp : t.sp = s.sp) (pc : t.pc = s.pc) : t.latchesAgree := by
  unfold State.latchesAgree at hs ⊢
  rwa [status, cause, pc0, word, sp, pc]

/-- The invariant looks at memory, the status, the latches, SP and PC only. -/
theorem State.Inv.congr {s t : State} (hs : s.Inv) (mem : t.mem = s.mem) (status : t.status = s.status)
    (cause : t.faultCause = s.faultCause) (pc0 : t.faultPc = s.faultPc) (word : t.faultWord = s.faultWord)
    (sp : t.sp = s.sp) (pc : t.pc = s.pc) : t.Inv :=
  ⟨mem ▸ hs.1, hs.2.congr status cause pc0 word sp pc⟩

/-- A running block whose status and latches are kept still agrees, whatever happens to SP and PC. -/
theorem State.latchesAgree_of_running {s t : State} (h : s.status = .running) (hs : s.latchesAgree)
    (status : t.status = s.status) (cause : t.faultCause = s.faultCause) (pc0 : t.faultPc = s.faultPc)
    (word : t.faultWord = s.faultWord) : t.latchesAgree := by
  rw [State.latchesAgree_iff_of_running (status.trans h), cause, pc0, word]
  exact (State.latchesAgree_iff_of_running h).mp hs

/-! ## The transactions -/

/-- An instruction of a running block keeps the invariant: it stores bytes, or it takes the fatal entry, which latches
the word of a `RET` on an empty or of a `CALL` on a full stack (R172). -/
theorem exec_keeps_inv {i : Instr} {s t : State} (hs : s.Inv) (hrun : s.status = .running)
    (h : exec i s = .next t) : t.Inv := by
  obtain ⟨hmem, hlatch⟩ := hs
  have npc : s.pc = s.pc0 + 2 := by simp [State.pc0]
  rcases exec_cases h with ⟨v, ii, pc, mem, disp, dt, st, c, rfl, hm⟩ | ⟨stack, sp, pc, rfl⟩ | ⟨rfl, hsp, hf⟩ |
    ⟨nnn, rfl, hsp, hf⟩
  · refine ⟨?_, State.latchesAgree_of_running hrun hlatch rfl rfl rfl rfl⟩
    rcases hm with rfl | ⟨a, l, rfl⟩
    · exact hmem
    · exact Memory.writeBytes_wf l hmem a
  · exact ⟨hmem, State.latchesAgree_of_running hrun hlatch rfl rfl rfl rfl⟩
  · obtain rfl := fatal_eq_next.mp hf
    exact ⟨hmem, rfl, hsp, rfl, npc⟩
  · obtain rfl := fatal_eq_next.mp hf
    exact ⟨hmem, rfl, hsp, fieldOp_formatA 2 nnn, npc⟩

/-- A STEP keeps the invariant. -/
theorem performStep_keeps_inv {s t : State} (hs : s.Inv) (h : performStep s = .next t) : t.Inv := by
  obtain ⟨hmem, hlatch⟩ := hs
  rcases performStep_cases h with ⟨-, rfl⟩ | ⟨hrun, i, -, hi⟩ | ⟨hrun, e, -, rfl⟩
  · exact State.Inv.congr ⟨hmem, hlatch⟩ rfl rfl rfl rfl rfl rfl rfl
  · have hadv : (advance s).Inv := ⟨hmem, State.latchesAgree_of_running hrun hlatch rfl rfl rfl rfl⟩
    exact exec_keeps_inv hadv hrun hi
  · exact ⟨hmem, State.latchesAgree_of_running hrun hlatch rfl rfl rfl rfl⟩

/-- RESET establishes the invariant, accepted or refused, from any state (R200, R201). -/
theorem performReset_inv (font : Vector Byte 80) (program : List Byte) (s : State) :
    (performReset font program s).Inv := by
  by_cases h : program.length ≤ Config.programMax
  · rw [performReset_accepted s h]
    exact ⟨resetMemory_wf font program, rfl, rfl, rfl⟩
  · rw [performReset_refused s h]
    refine ⟨by rw [refuseReset_mem]; exact unspecMemory_wf _, ?_⟩
    simp [State.latchesAgree]

/-! ## The obligations -/

/-- Settles O58: a transaction of each kind keeps the invariant. -/
theorem stepKeepsTheInvariant : Obligations.StepKeepsTheInvariant := by
  intro s t hs h
  rcases step_cases h with ⟨r, -, hstep⟩ | ⟨font, program, -, rfl⟩ | ⟨-, rfl⟩ | ⟨k, -, rfl⟩
  · have presented : State.Inv { takeTransaction s with rand := r } := hs.congr rfl rfl rfl rfl rfl rfl rfl
    exact performStep_keeps_inv presented hstep
  · exact performReset_inv font program _
  · exact hs.congr rfl rfl rfl rfl rfl rfl rfl
  · exact hs.congr rfl rfl rfl rfl rfl rfl rfl

/-- Settles O57: nothing is listed in memory at reset, and the latches are clear. -/
theorem resetMeetsTheInvariant : Obligations.ResetMeetsTheInvariant :=
  ⟨Memory.reset_wf, rfl, rfl, rfl⟩

end Sys2Proof.Machine
end

section
/-!
PROOFS. What an instruction leaves unchanged (10_state.md, read and write matrix; 40_control_flow.md R88): each piece of
state has its own writers, stated once as the frame of an instruction.
-/

namespace Sys2Proof.Machine

open Sys2Proof.Claims

/-- Which instructions may change which piece of state when `i` takes `s` to `t` (R11 to R19, R53, R88). -/
structure InstrFrame (i : Instr) (s t : State) : Prop where
  reg : ∀ r, mayWriteReg i r = false → t.reg r = s.reg r
  index : (∀ nnn, i ≠ .ldI nnn) → (∀ x, i ≠ .addI x ∧ i ≠ .ldF x) → t.i = s.i
  pc : mayWritePc i = false → t.pc = s.pc
  stack : (∀ nnn, i ≠ .call nnn) → t.stack = s.stack
  sp : (∀ nnn, i ≠ .call nnn) → i ≠ .ret → t.sp = s.sp
  dt : (∀ x, i ≠ .ldDtVx x) → t.dt = s.dt
  st : (∀ x, i ≠ .ldStVx x) → t.st = s.st
  mem : (∀ x, i ≠ .ldB x ∧ i ≠ .storeRegs x) → t.mem = s.mem
  disp : i ≠ .cls → (∀ x y n, i ≠ .drw x y n) → t.disp = s.disp
  keys : t.keys = s.keys

/-- Every instruction keeps its frame: the state it answers is written out per case, and each field is either its own or
that of `s`. -/
theorem exec_frame {i : Instr} {s t : State} (h : exec i s = .next t) : InstrFrame i s t := by
  cases i
  case ret =>
    rcases execRet_cases h with ⟨d, _, _, rfl⟩ | ⟨_, hf⟩
    · constructor <;> simp [mayWritePc, State.reg]
    · obtain rfl := fatal_eq_next.mp hf
      constructor <;> simp [State.reg]
  case call nnn =>
    rcases execCall_cases h with ⟨_, rfl⟩ | ⟨_, hf⟩
    · constructor <;> simp [mayWritePc, State.reg]
    · obtain rfl := fatal_eq_next.mp hf
      constructor <;> simp [State.reg]
  case ldVxK x =>
    rcases execLdVxK_cases h with ⟨_, rfl⟩ | ⟨k, _, rfl⟩
    · constructor <;> simp [mayWritePc]
    · constructor <;> simp +contextual [mayWriteReg, State.reg_setReg_of_ne]
  case seImm | sneImm | seReg | sneReg | skp | sknp =>
    obtain rfl := skipIf_eq_next.mp h
    constructor <;> simp [mayWritePc]
  case addReg | sub | shr | subn | shl =>
    obtain rfl := done_eq_next.mp h
    constructor <;> simp +contextual [mayWriteReg, State.reg_setResultFlag_other]
  case ldImm | addImm | ldReg | orReg | andReg | xorReg | rnd | ldVxDt =>
    obtain rfl := done_eq_next.mp h
    constructor <;> simp +contextual [mayWriteReg, State.reg_setReg_of_ne]
  case loadRegs x =>
    obtain rfl := done_eq_next.mp h
    constructor <;> simp +contextual [mayWriteReg, State.reg_loadUpTo]
  case drw x y n =>
    obtain rfl := done_eq_next.mp h
    constructor <;> simp +contextual [mayWriteReg, State.reg_setReg_of_ne]
    case reg => exact fun _ _ => rfl
  case jp | jpV0 =>
    obtain rfl := done_eq_next.mp h
    constructor <;> simp [mayWritePc]
  case ldI | addI | ldF | ldB | storeRegs =>
    obtain rfl := done_eq_next.mp h
    constructor <;> simp
  case cls | ldDtVx | ldStVx =>
    obtain rfl := done_eq_next.mp h
    constructor <;> simp [State.reg]

/-- Memory outside the 16 bytes at `I` reads as before after every instruction (R53): the two stores write 3 and at most
16 bytes there. -/
theorem exec_read_outside {i : Instr} {s t : State} (h : exec i s = .next t) {a : Nat}
    (ha : ∀ k < 16, a % 4096 ≠ s.operandAddr k % 4096) : Memory.read t.mem a = Memory.read s.mem a := by
  cases i
  case ldB x =>
    obtain rfl := done_eq_next.mp h
    exact s.read_storeOperand_outside _ fun k hk => ha k (Nat.lt_trans hk (by simp [decimalDigits]))
  case storeRegs x =>
    obtain rfl := done_eq_next.mp h
    refine s.read_storeOperand_outside _ fun k hk => ha k ?_
    rw [State.regsUpTo_length] at hk
    omega
  all_goals rw [(exec_frame h).mem (by simp)]

/-! ## The obligations -/

/-- Settles O29: the frame's clause for PC (R88). -/
theorem otherInstructionsFlowOn : Obligations.OtherInstructionsFlowOn :=
  fun _ _ _ hi h => (exec_frame h).pc hi

/-- Settles O30: the frame's clauses for the stack and SP (R14, R15). -/
theorem onlyCallAndReturnTouchTheStack : Obligations.OnlyCallAndReturnTouchTheStack :=
  fun _ _ _ h hcall => ⟨(exec_frame h).stack hcall, (exec_frame h).sp hcall⟩

/-- Settles O38: the frame's clause for the registers (R11, R24). -/
theorem registersChangeOnlyAsDestinations : Obligations.RegistersChangeOnlyAsDestinations :=
  fun _ _ _ r h hr => (exec_frame h).reg r hr

/-- Settles O44: the frame's clause for `I` (R12, R126). -/
theorem indexChangesOnlyByItsThreeWriters : Obligations.IndexChangesOnlyByItsThreeWriters :=
  fun _ _ _ h => (exec_frame h).index

/-- Settles O45: the frame's clause for memory, and the extent of the two stores (R53). -/
theorem memoryIsWrittenOnlyByItsTwoStores : Obligations.MemoryIsWrittenOnlyByItsTwoStores :=
  fun _ _ _ h => ⟨(exec_frame h).mem, fun _ ha => exec_read_outside h ha⟩

/-- Settles O50: the frame's clause for the display (R18). -/
theorem displayChangesOnlyByClearAndDraw : Obligations.DisplayChangesOnlyByClearAndDraw :=
  fun _ _ _ h => (exec_frame h).disp

/-- Settles O55: the frame's clauses for the timers and the key latch (R16, R19). -/
theorem timersAndKeysKeepTheirWriters : Obligations.TimersAndKeysKeepTheirWriters :=
  fun _ _ _ h => ⟨(exec_frame h).dt, (exec_frame h).st, (exec_frame h).keys⟩

end Sys2Proof.Machine
end

section
/-!
PROOFS. Independence: a TICK, a SETKEYS (60_exceptions.md section 6) and another `I` of the same residue (20_memory.md
section 2) change the answer of an instruction only where it reads what they change.
-/

namespace Sys2Proof.Machine

/-- An instruction that touches no timer commutes with a TICK (R188). -/
theorem exec_performTick {i : Instr} {s t : State} (hi : ∀ x, i ≠ .ldVxDt x ∧ i ≠ .ldDtVx x ∧ i ≠ .ldStVx x)
    (h : exec i s = .next t) : exec i (performTick s) = .next (performTick t) := by
  cases i
  case ldVxDt x | ldDtVx x | ldStVx x => simpa using hi x
  case ret =>
    rcases execRet_cases h with ⟨d, _, hsp, rfl⟩ | ⟨hsp, hf⟩
    · exact execRet_pop (s := performTick s) hsp
    · obtain rfl := fatal_eq_next.mp hf
      exact execRet_empty (s := performTick s) hsp
  case call nnn =>
    rcases execCall_cases h with ⟨hsp, rfl⟩ | ⟨hsp, hf⟩
    · exact execCall_push (s := performTick s) nnn hsp
    · obtain rfl := fatal_eq_next.mp hf
      exact execCall_full (s := performTick s) nnn hsp
  case ldVxK x =>
    rcases execLdVxK_cases h with ⟨hk, rfl⟩ | ⟨k, hk, rfl⟩
    · exact execLdVxK_wait (s := performTick s) hk
    · exact execLdVxK_load (s := performTick s) hk
  case seImm | sneImm | seReg | sneReg | skp | sknp =>
    obtain rfl := skipIf_eq_next.mp h
    exact skipIf_eq_next.mpr rfl
  all_goals
    obtain rfl := done_eq_next.mp h
    rfl

/-- An instruction that reads no key commutes with a SETKEYS (R188). -/
theorem exec_performSetKeys {i : Instr} {s t : State} (k : Keys)
    (hi : ∀ x, i ≠ .skp x ∧ i ≠ .sknp x ∧ i ≠ .ldVxK x) (h : exec i s = .next t) :
    exec i (performSetKeys k s) = .next (performSetKeys k t) := by
  cases i
  case skp x | sknp x | ldVxK x => simpa using hi x
  case ret =>
    rcases execRet_cases h with ⟨d, _, hsp, rfl⟩ | ⟨hsp, hf⟩
    · exact execRet_pop (s := performSetKeys k s) hsp
    · obtain rfl := fatal_eq_next.mp hf
      exact execRet_empty (s := performSetKeys k s) hsp
  case call nnn =>
    rcases execCall_cases h with ⟨hsp, rfl⟩ | ⟨hsp, hf⟩
    · exact execCall_push (s := performSetKeys k s) nnn hsp
    · obtain rfl := fatal_eq_next.mp hf
      exact execCall_full (s := performSetKeys k s) nnn hsp
  case seImm | sneImm | seReg | sneReg =>
    obtain rfl := skipIf_eq_next.mp h
    exact skipIf_eq_next.mpr rfl
  all_goals
    obtain rfl := done_eq_next.mp h
    rfl

/-- An instruction executed with another `I` of the same residue answers a state with the same registers, memory,
display and PC (R41): the addresses it forms from `I` are the same modulo 4096. -/
theorem exec_congr_index {i : Instr} {s t : State} {w : Word} (hw : w.toNat % 4096 = s.i.toNat % 4096)
    (h : exec i s = .next t) :
    ∃ u, exec i { s with i := w } = .next u ∧ u.v = t.v ∧ u.mem = t.mem ∧ u.disp = t.disp ∧ u.pc = t.pc := by
  have bytes : State.operandByte { s with i := w } = s.operandByte :=
    funext (State.operandByte_congr (t := { s with i := w }) rfl hw)
  have store : ∀ l, Memory.writeBytes s.mem w.toNat l = Memory.writeBytes s.mem s.i.toNat l :=
    fun l => Memory.writeBytes_mod l s.mem hw
  cases i
  case ret =>
    rcases execRet_cases h with ⟨d, _, hsp, rfl⟩ | ⟨hsp, hf⟩
    · exact ⟨_, execRet_pop (s := { s with i := w }) hsp, rfl, rfl, rfl, rfl⟩
    · obtain rfl := fatal_eq_next.mp hf
      exact ⟨_, execRet_empty (s := { s with i := w }) hsp, rfl, rfl, rfl, rfl⟩
  case call nnn =>
    rcases execCall_cases h with ⟨hsp, rfl⟩ | ⟨hsp, hf⟩
    · exact ⟨_, execCall_push (s := { s with i := w }) nnn hsp, rfl, rfl, rfl, rfl⟩
    · obtain rfl := fatal_eq_next.mp hf
      exact ⟨_, execCall_full (s := { s with i := w }) nnn hsp, rfl, rfl, rfl, rfl⟩
  case ldVxK x =>
    rcases execLdVxK_cases h with ⟨hk, rfl⟩ | ⟨k, hk, rfl⟩
    · exact ⟨_, execLdVxK_wait (s := { s with i := w }) hk, rfl, rfl, rfl, rfl⟩
    · exact ⟨_, execLdVxK_load (s := { s with i := w }) hk, rfl, rfl, rfl, rfl⟩
  case seImm | sneImm | seReg | sneReg | skp | sknp =>
    obtain rfl := skipIf_eq_next.mp h
    exact ⟨_, skipIf_eq_next.mpr rfl, rfl, rfl, rfl, rfl⟩
  case drw x y n =>
    obtain rfl := done_eq_next.mp h
    refine ⟨_, exec_drw _ x y n, ?_⟩
    rw [bytes]
    exact ⟨rfl, rfl, rfl, rfl⟩
  case loadRegs x =>
    obtain rfl := done_eq_next.mp h
    refine ⟨_, exec_loadRegs _ x, State.v_eq_of_reg ?_, by simp, by simp, by simp⟩
    simp only [State.reg_setResult, State.reg_loadUpTo, bytes]
    exact fun _ => rfl
  case ldB x =>
    obtain rfl := done_eq_next.mp h
    exact ⟨_, exec_ldB _ x, rfl, store _, rfl, rfl⟩
  case storeRegs x =>
    obtain rfl := done_eq_next.mp h
    exact ⟨_, exec_storeRegs _ x, rfl, store _, rfl, rfl⟩
  all_goals
    obtain rfl := done_eq_next.mp h
    exact ⟨_, rfl, rfl, rfl, rfl, rfl⟩

/-! ## The obligations -/

/-- Settles O16: a TICK writes the timers only and a SETKEYS the latch only, and only the named instructions read or
write those. -/
theorem tickAndSetKeysCommuteWithOtherInstructions : Obligations.TickAndSetKeysCommuteWithOtherInstructions :=
  fun _ k _ _ h => ⟨fun hi => exec_performTick hi h, fun hi => exec_performSetKeys k hi h⟩

/-- Settles O46: operand bytes and stores depend on `I` modulo 4096 (`exec_congr_index`). -/
theorem dataAddressesWrapModulo4096 : Obligations.DataAddressesWrapModulo4096 :=
  fun _ _ _ _ hw h => exec_congr_index hw h

end Sys2Proof.Machine
end

section
/-!
PROOFS. The STEP and the schedule (20_memory.md section 3, 30_encoding.md R66 and R67, 60_exceptions.md R170 to R174,
R187 to R191): the fetch, the next transaction, the unknown word, the fatal entry, the halted block and the quiescent
states.
-/

namespace Sys2Proof.Machine

open Sys2Proof.Claims

/-! ## The fetch -/

/-- The fetched word as a number: the high byte first, each address reduced (R44). -/
theorem fetchWord_toNat (s : State) :
    (fetchWord s).toNat
      = (Memory.read s.mem (s.pc.toNat % 4096)).toNat * 256
        + (Memory.read s.mem ((s.pc.toNat + 1) % 4096)).toNat := by
  rw [fetchWord, wordOfBytes, toNat_append_add, Memory.read_mod s.mem (Nat.mod_mod s.pc.toNat 4096),
    Memory.read_mod s.mem (Nat.mod_mod (s.pc.toNat + 1) 4096)]
  rfl

/-- The program counter two further, as a number (R13, R44). -/
theorem toNat_add_two (w : Word) : (w + 2).toNat = (w.toNat + 2) % 65536 := BitVec.toNat_add w 2

/-- Two bytes decode, with nothing left over, as their word does (R60). -/
theorem decodeBytes_pair {hi lo : Byte} {i : Instr} :
    decodeBytes [hi, lo] = .ok (i, []) ↔ decodeWord (wordOfBytes hi lo) = .ok i := by
  cases h : decodeWord (wordOfBytes hi lo) <;> simp [decodeBytes, h]

/-- Settles O7: the fetched word is the sum of its bytes, and the advance is a `setPc`. -/
theorem fetchReadsBigEndianWord : Obligations.FetchReadsBigEndianWord :=
  fun s => ⟨fetchWord_toNat s, toNat_add_two s.pc, rfl⟩

/-! ## The next transaction -/

/-- Settles O8: the step performs the STEP that is next, whose word decodes. -/
theorem stepRunsTheDecodedInstruction : Obligations.StepRunsTheDecodedInstruction :=
  fun s _ r hrun hbytes hnext =>
    (step_eq hnext).trans (perform_step_known (s := takeTransaction s) r hrun (decodeBytes_pair.mp hbytes))

/-- Settles O9: the two ways a transaction is taken, and `step_eq` for each of the four kinds. -/
theorem stepPerformsTheNextTransaction : Obligations.StepPerformsTheNextTransaction := by
  refine fun s => ⟨fun tr rest h => ?scheduled, fun h => ?unscheduled, fun r h => step_eq h,
    fun font program h => step_eq h, fun h => step_eq h, fun k h => step_eq h⟩
  case scheduled => exact ⟨nextTransaction_scheduled h, takeTransaction_scheduled h⟩
  case unscheduled => exact ⟨nextTransaction_unscheduled h, takeTransaction_unscheduled h⟩

/-! ## Unknown words -/

/-- A word that selects no row of the opcode map is refused by the decoder (R64). -/
theorem exists_error_of_selects_no_row {w : Word} (h : ∀ row ∈ opcodeRows, w &&& row.1 ≠ row.2) :
    ∃ e, decodeWord w = .error e := by
  cases hd : decodeWord w with
  | ok i => exact absurd (decodeWord_selects_row hd) (h _ (opcodeRow_mem i))
  | error e => exact ⟨e, rfl⟩

/-- A STEP of a running block whose word is refused (R67). -/
theorem perform_step_unknown {s : State} {e : DecodeError} (r : Byte) (h : s.status = .running)
    (hd : decodeWord (fetchWord s) = .error e) :
    perform (.step r) s = skipUnknown (advance { s with rand := r }) :=
  performStep_unknown (s := { s with rand := r }) h hd

/-- Settles O10: the refused word leaves the advanced state with its result code. -/
theorem unknownWordIsASilentNop : Obligations.UnknownWordIsASilentNop := by
  intro s r hrun hrows
  obtain ⟨e, he⟩ := exists_error_of_selects_no_row hrows
  exact ⟨_, perform_step_unknown r hrun he, toNat_add_two s.pc, rfl, rfl⟩

/-! ## Every step completes -/

/-- Every instruction answers a next state. -/
theorem exec_completes (i : Instr) (s : State) : ∃ t, exec i s = .next t := by
  cases i
  case ret =>
    rcases Nat.eq_zero_or_pos s.sp.val with h | h
    · exact ⟨_, execRet_empty h⟩
    · exact ⟨_, execRet_pop (d := s.sp.val - 1) (by omega)⟩
  case call nnn =>
    rcases Nat.lt_or_ge s.sp.val 16 with h | h
    · exact ⟨_, execCall_push nnn h⟩
    · exact ⟨_, execCall_full nnn (by omega)⟩
  case ldVxK x =>
    cases h : lowestKey s.keys with
    | none => exact ⟨_, execLdVxK_wait h⟩
    | some k => exact ⟨_, execLdVxK_load h⟩
  case seImm | sneImm | seReg | sneReg | skp | sknp => exact ⟨_, skipIf_eq_next.mpr rfl⟩
  all_goals exact ⟨_, rfl⟩

/-- Every STEP answers a next state. -/
theorem performStep_completes (s : State) : ∃ t, performStep s = .next t := by
  cases hs : s.status with
  | halted => exact ⟨_, performStep_halted hs⟩
  | running =>
    cases hd : decodeWord (fetchWord s) with
    | ok i =>
      rw [performStep_known hs hd]
      exact exec_completes i _
    | error e => exact ⟨_, performStep_unknown hs hd⟩

/-- Settles O11: the three other transactions answer a next state by definition. -/
theorem everyStepCompletes : Obligations.EveryStepCompletes := by
  intro s
  cases htr : nextTransaction s with
  | step r =>
    rw [step_eq htr]
    exact performStep_completes _
  | reset font program => exact ⟨_, step_eq htr⟩
  | tick => exact ⟨_, step_eq htr⟩
  | setKeys k => exact ⟨_, step_eq htr⟩

/-! ## The fatal entry and the halted block -/

/-- The condition of the fatal entry (R170): `RET` on an empty or `CALL` on a full stack, with its cause. -/
def FatalCondition (i : Instr) (s : State) (cause : FaultCause) : Prop :=
  (i = .ret ∧ s.sp.val = 0 ∧ cause = .stackUnderflow) ∨
    ((∃ nnn, i = .call nnn) ∧ s.sp.val = 16 ∧ cause = .stackOverflow)

/-- Under its condition an instruction is the fatal entry with its own word (R80, R82, R172). -/
theorem exec_fatal {i : Instr} {s : State} {cause : FaultCause} (h : FatalCondition i s cause) :
    exec i s = fatal cause (encode i) s := by
  rcases h with ⟨rfl, hsp, rfl⟩ | ⟨⟨nnn, rfl⟩, hsp, rfl⟩
  · exact execRet_empty hsp
  · exact execCall_full nnn hsp

/-- An instruction meets the condition of the fatal entry, or it keeps the status and the latches (R170). -/
theorem exec_fatal_or_keeps_latches {i : Instr} {s t : State} (h : exec i s = .next t) :
    (∃ cause, FatalCondition i s cause) ∨
      (t.status = s.status ∧ t.faultCause = s.faultCause ∧ t.faultPc = s.faultPc ∧ t.faultWord = s.faultWord) := by
  rcases exec_cases h with ⟨_, _, _, _, _, _, _, _, rfl, -⟩ | ⟨_, _, _, rfl⟩ | ⟨hi, hsp, -⟩ | ⟨nnn, hi, hsp, -⟩
  · exact .inr ⟨rfl, rfl, rfl, rfl⟩
  · exact .inr ⟨rfl, rfl, rfl, rfl⟩
  · exact .inl ⟨_, .inl ⟨hi, congrArg Fin.val hsp, rfl⟩⟩
  · exact .inl ⟨_, .inr ⟨⟨nnn, hi⟩, congrArg Fin.val hsp, rfl⟩⟩

/-- Some cause has its condition met exactly when the instruction is `RET` at depth 0 or `CALL` at depth 16. -/
theorem exists_fatalCondition_iff {i : Instr} {s : State} :
    (∃ cause, FatalCondition i s cause) ↔
      (i = .ret ∧ s.sp.val = 0) ∨ ((∃ nnn, i = .call nnn) ∧ s.sp.val = 16) := by
  simp [FatalCondition, exists_or]

/-- Settles O12: under either condition the instruction is the fatal entry with its own word, which is the one
fetched. -/
theorem fatalEntryHaltsAndLatches : Obligations.FatalEntryHaltsAndLatches := by
  intro s r i cause hrun hd (hcond : FatalCondition i (advance { s with rand := r }) cause)
  have hstep := (perform_step_known r hrun hd).trans (exec_fatal hcond)
  have hword : encode i = fetchWord s := (encode_of_decodeWord hd).2
  exact ⟨_, hstep, rfl, rfl, pc0_advance _, hword, toNat_add_two s.pc, rfl, rfl⟩

/-- Settles O13: under the condition the next state is that of the fatal entry; otherwise status and latches stay. -/
theorem onlyCallAndReturnRaise : Obligations.OnlyCallAndReturnRaise := by
  intro i s t hrun h
  rw [← exists_fatalCondition_iff]
  by_cases hcond : ∃ cause, FatalCondition i s cause
  · have halted : t.status = .halted := by
      obtain ⟨cause, hcause⟩ := hcond
      obtain rfl := fatal_eq_next.mp ((exec_fatal hcause).symm.trans h)
      rfl
    simp [halted, hcond]
  · obtain ⟨hstatus, hlatches⟩ := (exec_fatal_or_keeps_latches h).resolve_left hcond
    simp [hstatus, hrun, hcond, hlatches]

/-- Settles O14: `performStep_halted` gives the ignored STEP, whose state is `s` but for its byte and result code. -/
theorem haltedBlockIgnoresStep : Obligations.HaltedBlockIgnoresStep :=
  fun s r h => ⟨_, performStep_halted (s := { s with rand := r }) h, rfl, rfl⟩

/-- Settles O15: of the other transactions a STEP is ignored, and a TICK and a SETKEYS touch no latch. -/
theorem onlyResetLeavesTheHaltedState : Obligations.OnlyResetLeavesTheHaltedState := by
  intro s t hs hreset h
  rcases step_cases h with ⟨r, -, hstep⟩ | ⟨font, program, hnext, -⟩ | ⟨-, rfl⟩ | ⟨k, -, rfl⟩
  · rw [performStep_halted (s := { takeTransaction s with rand := r }) hs] at hstep
    obtain rfl := Host.Outcome.next.inj hstep
    exact ⟨hs, rfl, rfl, rfl⟩
  · exact absurd hnext (hreset font program)
  · exact ⟨hs, rfl, rfl, rfl⟩
  · exact ⟨hs, rfl, rfl, rfl⟩

/-! ## The quiescent states -/

/-- Settles O56: the jump takes PC back to where the fetch was, so the same word is fetched again. -/
theorem selfJumpIsFinal : Obligations.SelfJumpIsFinal := by
  rintro s r ⟨hrun, hd⟩
  have hstep : perform (.step r) s = .next { s with rand := r, result := some .executed } :=
    perform_step_known r hrun hd
  exact ⟨_, hstep, ⟨hrun, hd⟩, rfl⟩

/-- Settles O52: `LD Vx, K` takes PC back when no key is held; a latch that is not 0 has a lowest held key, which the
next STEP loads. -/
theorem keyWaitHoldsUntilAKeyIsHeld : Obligations.KeyWaitHoldsUntilAKeyIsHeld := by
  rintro s r ⟨hrun, ⟨x, hd⟩, hkeys⟩
  refine ⟨?wait, fun k hk => ?lift⟩
  case wait =>
    have hstep := (perform_step_known r hrun hd).trans (execLdVxK_wait (lowestKey_none.mpr hkeys))
    rw [pc0_advance] at hstep
    have hwait : perform (.step r) s = .next { s with rand := r, result := some .waitingKey } := hstep
    exact ⟨_, hwait, rfl, rfl⟩
  case lift =>
    obtain ⟨j, hj⟩ := Option.ne_none_iff_exists'.mp (mt lowestKey_none.mp hk)
    have hstep := (perform_step_known (s := performSetKeys k s) r hrun hd).trans (execLdVxK_load hj)
    exact ⟨_, _, perform_setKeys k s, fun hwait => hk hwait.2.2, hstep, rfl, toNat_add_two s.pc⟩

end Sys2Proof.Machine
end

section
/-!
PROOFS. RESET and the timers over time (70_reset_and_hazards.md section 1, 60_exceptions.md section 4): the state an
accepted RESET constructs, the refused RESET, and the delay timer after any number of TICKs.
-/

namespace Sys2Proof.Machine

open Sys2Proof.Claims

/-! ## Memory after a RESET -/

section
variable (font : Vector Byte 80) {program : List Byte} (hlen : program.length ≤ 3584) {a : Nat}
include hlen

/-- Below 0x200 and behind its end the program leaves what was written before it (R200). -/
theorem read_resetMemory_outside_program (ha : a < 4096) (hout : a < 0x200 ∨ 0x200 + program.length ≤ a) :
    Memory.read (resetMemory font program) a = Memory.read (Memory.writeBytes [] 0 font.toList) a := by
  refine Memory.read_writeBytes_outside program _ fun j hj => ?_
  simp only [Config.memSize, Config.programBase, BitVec.toNat_ofNat]
  omega

/-- The font stands at 0x000 (R200). -/
theorem read_resetMemory_font (ha : a < 80) : Memory.read (resetMemory font program) a = font[a] := by
  have inside := Memory.read_writeBytes_inside font.toList [] (a := 0) (j := a) (by simp [Config.memSize]) (by simpa)
  rw [read_resetMemory_outside_program font hlen (by omega) (by omega)]
  simpa using inside

/-- The program stands at 0x200 (R200). -/
theorem read_resetMemory_program {k : Nat} (hk : k < program.length) :
    Memory.read (resetMemory font program) (0x200 + k) = program[k] :=
  Memory.read_writeBytes_inside program _ (by simp only [Config.memSize]; omega) hk

/-- Every other byte is 0 (R200, decision D13). -/
theorem read_resetMemory_zero (hfont : 80 ≤ a) (ha : a < 4096)
    (hout : a < 0x200 ∨ 0x200 + program.length ≤ a) : Memory.read (resetMemory font program) a = 0 := by
  have outside : Memory.read (Memory.writeBytes [] 0 font.toList) a = Memory.read [] a := by
    refine Memory.read_writeBytes_outside _ _ fun j hj => ?_
    simp only [Vector.length_toList] at hj
    simp only [Config.memSize]
    omega
  rw [read_resetMemory_outside_program font hlen ha hout, outside]
  simp [Memory.read, Memory.lookup, Memory.unlisted, Nat.mod_eq_of_lt ha, Nat.not_lt.mpr hfont]

end

/-- Settles O17: the accepted RESET keeps nothing of `s` but the environment's fields; its memory is `resetMemory`. -/
theorem resetConstructsTheState : Obligations.ResetConstructsTheState := by
  intro font program s hlen
  have haccept : perform (.reset font program) s = .next (acceptReset font program s) :=
    congrArg Host.Outcome.next (performReset_accepted s hlen)
  have hreg : ∀ r, (acceptReset font program s).reg r = 0 := fun r => by simp [acceptReset, State.reset, State.reg]
  have hstack : ∀ k (h : k < 16), (acceptReset font program s).stack[k] = 0 := fun k h => by
    simp [acceptReset, State.reset]
  exact ⟨_, haccept, rfl, hreg, rfl, rfl, hstack, rfl, rfl, pixelAt_blankDisplay, rfl, rfl, rfl, rfl, rfl,
    fun a h => read_resetMemory_font font hlen h, fun k h => read_resetMemory_program font hlen h,
    fun a h80 h4096 hout => read_resetMemory_zero font hlen h80 h4096 hout⟩

/-- Settles O18: the refused RESET leaves the halted state, and a halted block ignores a STEP. -/
theorem oversizedProgramIsRefused : Obligations.OversizedProgramIsRefused := by
  intro font program s r hlen
  have hrefuse : perform (.reset font program) s = .next (refuseReset s) :=
    congrArg Host.Outcome.next (performReset_refused s (Nat.not_le.mpr hlen))
  exact ⟨_, hrefuse, refuseReset_status s, congrArg FaultCause.code (refuseReset_faultCause s), refuseReset_faultPc s,
    refuseReset_faultWord s, haltedBlockIgnoresStep _ r (refuseReset_status s)⟩

/-! ## The delay timer -/

/-- `n` TICKs count the delay timer down by `n`, to 0 at the least (R180, R181). -/
theorem dt_performTick_iterate (n : Nat) (s : State) : (performTick^[n] s).dt.toNat = s.dt.toNat - n := by
  induction n generalizing s with
  | zero => rfl
  | succ n ih =>
    rw [Function.iterate_succ_apply, ih, performTick_dt, countDown_toNat]
    omega

/-- `LD Vy, DT` after `n` TICKs reads the timer of the state before them less `n` (R152). -/
theorem ldVxDt_after_ticks_writesRegister (y : Reg) (n : Nat) (s : State) :
    WritesRegister (.ldVxDt y) (performTick^[n] s) y (s.dt.toNat - n) := by
  rw [← dt_performTick_iterate]
  exact writesRegister_of_exec_eq_setReg (exec_ldVxDt _ y)

/-- Settles O54: the timer that `LD DT, Vx` set is the one the TICKs count down. -/
theorem delayTimerReadsElapsedTicks : Obligations.DelayTimerReadsElapsedTicks :=
  fun x y n s => ⟨_, exec_ldDtVx s x, ldVxDt_after_ticks_writesRegister y n _⟩

end Sys2Proof.Machine
end

section
/-!
PROOFS. Control flow (40_control_flow.md section 2): the return stack, the jump with offset, and the skips.
-/

namespace Sys2Proof.Machine

open Sys2Proof.Claims

/-! ## The return stack -/

/-- Settles O21: a pop with an entry on the stack, the fatal entry without. -/
theorem returnPopsTheStack : Obligations.ReturnPopsTheStack := by
  refine fun s => ⟨fun d h hsp => ?pop, fun hsp => ?empty⟩
  case pop => exact ⟨_, execRet_pop hsp, rfl, rfl, fun _ => rfl, rfl, rfl⟩
  case empty => exact ⟨_, execRet_empty hsp, rfl, rfl, rfl⟩

/-- Settles O22: a push with room on the stack, the fatal entry without. -/
theorem callPushesTheReturnAddress : Obligations.CallPushesTheReturnAddress := by
  refine fun nnn s => ⟨fun hsp => ?push, fun hsp => ?full⟩
  case push =>
    have pushed : (s.stack.set s.sp.val s.pc hsp)[s.sp.val] = s.pc := Vector.getElem_set_self hsp
    have others : ∀ k (hk : k < 16), k ≠ s.sp.val → (s.stack.set s.sp.val s.pc hsp)[k] = s.stack[k] :=
      fun k hk hne => Vector.getElem_set_ne hsp hk hne.symm
    exact ⟨_, execCall_push nnn hsp, rfl, rfl, pushed, others, fun _ => rfl, rfl, rfl⟩
  case full => exact ⟨_, execCall_full nnn hsp, rfl, rfl, rfl⟩

/-- Settles O23: the entry that RET pops is the one that CALL pushed. -/
theorem returnAfterCallRestoresPc : Obligations.ReturnAfterCallRestoresPc := by
  intro nnn s hsp
  refine ⟨_, execCall_push nnn hsp, fun u hstack husp => ?_⟩
  have hdepth : u.sp.val = s.sp.val + 1 := congrArg Fin.val husp
  refine ⟨_, execRet_pop hdepth, ?_, rfl⟩
  simp [hstack]

/-! ## Jumps and skips -/

/-- Settles O25: a 12-bit `nnn` and a byte add up without a carry out of 16 bits. -/
theorem jumpWithOffsetAddsV0 : Obligations.JumpWithOffsetAddsV0 := by
  intro nnn s hnnn
  have hn : nnn.toNat < 0x1000 := of_decide_eq_true hnnn
  have hsum : (nnn + (s.reg 0).setWidth 16).toNat = nnn.toNat + (s.reg 0).toNat := by
    have := (s.reg 0).isLt
    rw [BitVec.toNat_add, BitVec.toNat_setWidth]
    omega
  rw [← hsum]
  exact writesPc_of_exec_eq_setPc (exec_jpV0 s nnn)

/-- The PC a skip leaves, as a number (R89, decision D4). -/
theorem toNat_skipTarget {b : Bool} {c : Prop} [Decidable c] (h : b = true ↔ c) (pc : Word) :
    (if b then pc + 2 else pc).toNat = afterSkip c pc := by
  simp only [afterSkip, ← h]
  split
  · exact toNat_add_two pc
  · rfl

/-- The rule for the skips: one whose condition `b` says `c` writes PC as `afterSkip c` does. -/
theorem writesPc_of_skip {i : Instr} {s : State} {b : Bool} {c : Prop} [Decidable c] (hc : b = true ↔ c)
    (h : exec i s = .next ((s.setPc (if b then s.pc + 2 else s.pc)).setResult .executed)) :
    WritesPc i s (afterSkip c s.pc) := by
  rw [← toNat_skipTarget hc]
  exact writesPc_of_exec_eq_setPc h

/-- Settles O26: the two conditions are the Boolean comparisons read as propositions (R83, R84). -/
theorem immediateSkipsCompare : Obligations.ImmediateSkipsCompare :=
  fun x kk s => ⟨writesPc_of_skip beq_iff_eq (exec_seImm s x kk), writesPc_of_skip bne_iff_ne (exec_sneImm s x kk)⟩

/-- Settles O27: as for the immediate skips, with a second register (R85, R86). -/
theorem registerSkipsCompare : Obligations.RegisterSkipsCompare :=
  fun x y s => ⟨writesPc_of_skip beq_iff_eq (exec_seReg s x y), writesPc_of_skip bne_iff_ne (exec_sneReg s x y)⟩

/-- Settles O28: the key tested is the one the low nibble selects (R156). -/
theorem keySkipsTestTheSelectedKey : Obligations.KeySkipsTestTheSelectedKey :=
  fun x s => ⟨writesPc_of_skip Iff.rfl (exec_skp s x), writesPc_of_skip (Bool.not_eq_true' _).to_iff (exec_sknp s x)⟩

end Sys2Proof.Machine
end

section
/-!
PROOFS. Index and memory (42_index_and_memory.md): index arithmetic, the two stores and the block load.
-/

namespace Sys2Proof.Machine

open Sys2Proof.Claims

/-- Settles O40: the two sums as numbers; five times a byte fits in 16 bits. -/
theorem indexArithmetic : Obligations.IndexArithmetic := by
  intro x s
  have hx := (s.reg x).isLt
  have hsum : (s.i + (s.reg x).setWidth 16).toNat = (s.i.toNat + (s.reg x).toNat) % 65536 := by
    rw [BitVec.toNat_add, BitVec.toNat_setWidth]
    omega
  have hfont : (BitVec.ofNat 16 (Config.fontBase + (s.reg x).toNat * Config.fontStride)).toNat
      = (s.reg x).toNat * 5 := by
    rw [BitVec.toNat_ofNat]
    simp only [Config.fontBase, Config.fontStride]
    omega
  rw [← hsum, ← hfont]
  exact ⟨writesIndex_of_exec_eq_setI (exec_addI s x), writesIndex_of_exec_eq_setI (exec_ldF s x)⟩

/-- The rule for the stores: an instruction that completes with `storeOperand` of at most 4096 bytes puts them at the
operand addresses and has the frame of `StoresAtIndex`. -/
theorem storesAtIndex_of_exec_eq_storeOperand {i : Instr} {s : State} {l : List Byte} {n : Nat} {byteAt : Nat → Nat}
    (h : exec i s = .next ((s.storeOperand l).setResult .executed)) (hn : l.length = n) (hmax : n ≤ 4096)
    (hbytes : ∀ k (hk : k < l.length), l[k].toNat = byteAt k) : StoresAtIndex i s n byteAt := by
  subst hn
  refine ⟨_, h, fun k hk => ?stored, fun a ha => s.read_storeOperand_outside l ha, rfl, rfl⟩
  case stored =>
    rw [State.setResult_mem, s.operandByte_storeOperand l hmax hk]
    exact hbytes k hk

/-- Settles O41: the digits as numbers are `decimalDigits_toNat`. -/
theorem bcdStoresThreeDigits : Obligations.BcdStoresThreeDigits := by
  refine fun x s => storesAtIndex_of_exec_eq_storeOperand (exec_ldB s x) rfl (by decide) fun k hk => ?_
  have digits := decimalDigits_toNat (s.reg x)
  simp only [decimalDigits, List.map_cons, List.map_nil, List.cons.injEq, and_true] at digits
  obtain ⟨hundreds, tens, ones⟩ := digits
  obtain rfl | rfl | rfl : k = 0 ∨ k = 1 ∨ k = 2 := by
    simp only [decimalDigits, List.length_cons, List.length_nil] at hk
    omega
  · exact hundreds
  · exact tens
  · exact ones

/-- Settles O42: byte `k` of the range `0..x` is `V[k]`. -/
theorem blockStoreWritesRegisters : Obligations.BlockStoreWritesRegisters := by
  refine fun x s => storesAtIndex_of_exec_eq_storeOperand (exec_storeRegs s x) (s.regsUpTo_length x) (by omega)
    fun k hk => ?_
  have h16 : k < 16 := by
    rw [State.regsUpTo_length] at hk
    omega
  rw [s.regsUpTo_get x hk h16, dif_pos h16]

/-- The block load after the block store of the same range, with any registers in between, reads the registers the store
wrote: `I` has not moved (R126). -/
theorem reg_loadUpTo_storeRegs (x r : Reg) (s : State) (clobbered : Vector Byte 16) (hr : r.val ≤ x.val) :
    (({ (s.storeOperand (s.regsUpTo x)).setResult .executed with v := clobbered } : State).loadUpTo x).reg r
      = s.reg r := by
  have hk : r.val < (s.regsUpTo x).length := by
    rw [State.regsUpTo_length]
    omega
  rw [State.reg_loadUpTo, if_pos hr, ← s.regsUpTo_get x hk r.isLt]
  exact s.operandByte_storeOperand (s.regsUpTo x) (by simp; omega) hk

/-- The block load changes the register file and the result code only (R125). -/
theorem loadUpTo_frame (x : Reg) (s : State) :
    { (s.loadUpTo x).setResult .executed with v := s.v, result := s.result } = s := by
  simp

/-- Settles O43: per register, the load reads its byte or keeps it, and the bytes it reads are those the store wrote. -/
theorem blockLoadReadsRegisters : Obligations.BlockLoadReadsRegisters := by
  constructor
  · intro x s
    refine ⟨_, exec_loadRegs s x, fun r hr => ?loaded, fun r hr => ?above, fun a => by simp, loadUpTo_frame x s,
      State.setResult_result _ _⟩
    case loaded =>
      rw [State.reg_setResult, State.reg_loadUpTo, if_pos hr]
      rfl
    case above => rw [State.reg_setResult, State.reg_loadUpTo, if_neg (by omega)]
  · intro x s clobbered
    refine ⟨_, _, exec_storeRegs s x, exec_loadRegs _ x, fun r hr => ?_⟩
    rw [State.reg_setResult]
    exact reg_loadUpTo_storeRegs x r s clobbered hr

end Sys2Proof.Machine
end

section
/-!
PROOFS. Display (43_display.md sections 1 and 2): the sprite's mask, what `DRW` does to each pixel and to VF, and
drawing the same sprite twice.
-/

namespace Sys2Proof.Machine

open Sys2Proof.Claims

/-! ## The mask -/

/-- The mask `S` of R145 as the compositor computes it, for the sprite that `DRW Vx, Vy, n` draws in `s`. -/
def spriteMask (s : State) (x y : Reg) (n col row : Nat) : Bool :=
  spriteCovers (s.reg x).toNat (s.reg y).toNat s.operandByte n col row

/-- On the display's own coordinates the mask is `SpriteSets` (R142, R143). -/
theorem spriteMask_iff {s : State} {x y : Reg} {n col row : Nat} (hn : n < 16) (hc : col < 64) (hr : row < 32) :
    spriteMask s x y n col row = true ↔ SpriteSets s x y n col row := by
  rw [spriteMask, spriteCovers_iff _ _ _ _ (by omega), Nat.mod_eq_of_lt hc, Nat.mod_eq_of_lt hr]
  rfl

/-- A property of pixels that depends on the reduced coordinates only holds of some set sprite pixel exactly when it
holds of some pixel under the mask. -/
theorem exists_spriteBit_iff {s : State} {x y : Reg} {n : Nat} {p : Nat → Nat → Prop}
    (hp : ∀ col row, p (col % 64) (row % 32) ↔ p col row) :
    (∃ dy < n, ∃ dx < 8, spriteBit (s.operandByte dy) dx = true ∧ p ((s.reg x).toNat + dx) ((s.reg y).toNat + dy)) ↔
      ∃ col < 64, ∃ row < 32, SpriteSets s x y n col row ∧ p col row := by
  constructor
  · rintro ⟨dy, hdy, dx, hdx, hbit, h⟩
    exact ⟨_, Nat.mod_lt _ (by decide), _, Nat.mod_lt _ (by decide), ⟨dy, hdy, dx, hdx, hbit, rfl, rfl⟩, (hp _ _).mpr h⟩
  · rintro ⟨_, -, _, -, ⟨dy, hdy, dx, hdx, hbit, rfl, rfl⟩, h⟩
    exact ⟨dy, hdy, dx, hdx, hbit, (hp _ _).mp h⟩

theorem flagByte_eq_one {c : Bool} : flagByte c = 1 ↔ c = true := by cases c <;> decide

theorem flagByte_eq_zero_or_one (c : Bool) : flagByte c = 0 ∨ flagByte c = 1 := by cases c <;> simp [flagByte]

/-! ## One DRW -/

section
variable {s t : State} {x y : Reg} {n : Nat} (hn : n < 16) (h : exec (.drw x y n) s = .next t)
include h

/-- `DRW` leaves memory and `I`, so its sprite is the same afterwards (R126, R141). -/
theorem operandByte_drw : t.operandByte = s.operandByte := by
  obtain rfl := done_eq_next.mp h
  exact funext fun k => State.operandByte_congr (s := s) (by simp) (by simp) k

/-- The sprite of the same `DRW` in the state it left has the same mask, when VF is not an origin register. -/
theorem spriteMask_drw (hx : x ≠ vf) (hy : y ≠ vf) (col row : Nat) :
    spriteMask t x y n col row = spriteMask s x y n col row := by
  have hregs : ∀ r, r ≠ vf → t.reg r = s.reg r := fun r hr => (exec_frame h).reg r (by simpa [mayWriteReg] using hr)
  rw [spriteMask, operandByte_drw h, hregs x hx, hregs y hy, spriteMask]

/-- VF is left 0 or 1 (R11). -/
theorem vf_drw : t.reg vf = 0 ∨ t.reg vf = 1 := by
  obtain rfl := done_eq_next.mp h
  rw [State.reg_setResult, State.reg_setReg_self]
  exact flagByte_eq_zero_or_one _

include hn

/-- `DRW` XORs the mask onto every pixel (R145 (a)). -/
theorem pixelAt_drw (col row : Nat) :
    pixelAt t.disp col row = (pixelAt s.disp col row != spriteMask s x y n col row) := by
  obtain rfl := done_eq_next.mp h
  exact (drawSprite_spec _ _ s.operandByte n (by omega) s.disp).1 col row

/-- VF reports exactly the collisions (R144). -/
theorem vf_drw_eq_one :
    t.reg vf = 1 ↔ ∃ col < 64, ∃ row < 32, SpriteSets s x y n col row ∧ pixelAt s.disp col row = true := by
  obtain rfl := done_eq_next.mp h
  have hp : ∀ col row, pixelAt s.disp (col % 64) (row % 32) = true ↔ pixelAt s.disp col row = true :=
    fun col row => by rw [pixelAt_mod s.disp (Nat.mod_mod col 64) (Nat.mod_mod row 32)]
  rw [State.reg_setResult, State.reg_setReg_self, flagByte_eq_one, ← exists_spriteBit_iff hp]
  exact (drawSprite_spec _ _ s.operandByte n (by omega) s.disp).2

end

/-! ## The obligations -/

/-- Settles O48: pixels by `pixelAt_drw`, VF by `vf_drw_eq_one`; the origin and the sprite are read in `s`. -/
theorem drawXorsTheSpriteAndReportsCollision : Obligations.DrawXorsTheSpriteAndReportsCollision := by
  intro x y n s hwf
  have hn : n < 16 := of_decide_eq_true hwf
  have hexec := exec_drw s x y n
  refine ⟨_, hexec, fun col hc row hr => ?pixel, vf_drw hexec, vf_drw_eq_one hn hexec, fun r hr => ?reg,
    fun a => ?memory, rfl, rfl⟩
  case pixel =>
    rw [← spriteMask_iff hn hc hr, pixelAt_drw hn hexec]
    cases pixelAt s.disp col row <;> cases spriteMask s x y n col row <;> decide
  case reg => exact State.reg_setReg_of_ne _ _ hr
  case memory => simp

/-- Settles O49: the mask is the same for both, so the second XOR takes the first one back, and a pixel under the mask
is lit for the second exactly when it was unlit for the first. -/
theorem drawingTwiceRestoresTheDisplay : Obligations.DrawingTwiceRestoresTheDisplay := by
  intro x y n s t hwf hx hy h
  have hn : n < 16 := of_decide_eq_true hwf
  obtain ⟨u, hu⟩ := exec_completes (.drw x y n) t
  have mask := spriteMask_drw h hx hy
  refine ⟨u, hu, fun col row => ?restored, ?vf⟩
  case restored =>
    rw [pixelAt_drw hn hu, mask, pixelAt_drw hn h]
    cases pixelAt s.disp col row <;> cases spriteMask s x y n col row <;> decide
  case vf =>
    rw [vf_drw_eq_one hn hu]
    refine exists_congr fun col => and_congr_right fun hc => exists_congr fun row => and_congr_right fun hr => ?_
    rw [← spriteMask_iff hn hc hr, ← spriteMask_iff hn hc hr, mask, pixelAt_drw hn h]
    cases pixelAt s.disp col row <;> cases spriteMask s x y n col row <;> decide

end Sys2Proof.Machine
end
